-- ==== Sys2Proof/Syntax.lean ====
section
/-! DEFINITION. Syntax.lean: the command set of the TOTP-TFA core, one constructor for each row of spec/opcode_table.json
(30_encoding.md R93). "No command word carries an operand" (R90), so no constructor has an argument. -/

namespace Sys2Proof

/-- The five commands of 30_encoding.md R93, in the order of the table. -/
inductive Instr where
  /-- `ENCODE`, word 0x00000001: the Counter Codec alone (40_counter_codec.md R121). -/
  | encode
  /-- `HMAC`, word 0x00000002: HMAC-SHA1 over the 8 bytes of `ENC` (41_hmac_sha1.md R141). -/
  | hmac
  /-- `HOTP`, word 0x00000003: the document's `hotp` (42_hotp.md R166). -/
  | hotp
  /-- `VERIFY`, word 0x00000004: the document's `verify` (43_totp_verify.md R185). -/
  | verify
  /-- `CLEAR`, word 0x00000005: every register back to its reset value (44_control.md R200). -/
  | clear
  deriving DecidableEq, Repr

end Sys2Proof
end

