-- ==== Sys2Proof/Word.lean ====
section
/-! DEFINITION. Word.lean: the bit-vector types the spec names (rules R9 and R10 of 00_scope.md). Only types stand here;
every operation on them stands in a file of Machine/. -/

namespace Sys2Proof

/-- "A byte is 8 bits." (00_scope.md R10) -/
abbrev Byte := BitVec 8

/-- A port word, a register of 32 bits, a command word, a SHA-1 word (20_memory.md R60, 41_hmac_sha1.md R130). -/
abbrev Word := BitVec 32

/-- A 64-bit register pair: `COUNTER`, `NOW`, `TSTEP`, `NOWL` (10_state.md R23, R30). -/
abbrev Dword := BitVec 64

/-- A byte string: `s[0]` is the first byte, `len(s)` is the list's length (00_scope.md R10). -/
abbrev Bytes := List Byte

end Sys2Proof
end

