-- ==== Sys2Proof/Config.lean ====
section
/-! DEFINITION. Config.lean: what is fixed when the block is built (00_scope.md R8), and the free values, each an opaque
constant with no body, so that no proof can see a value of it (93_implementation_defined.md U13, U15, U16, U18). -/

namespace Sys2Proof

/-- The build parameters of 00_scope.md R8 that the block's own behaviour depends on. They are "fixed when the block is
built and never change while it runs". Their ranges are `Params.wf` of WellFormed.lean. -/
structure Params where
  /-- `KEY_MAX`: the capacity of the key buffer in bytes. -/
  keyMax : Nat
  /-- `CODE_MAX`: the capacity of the token buffer and of the code buffer in bytes. -/
  codeMax : Nat
  /-- `ZERO_COUNTER_MISSING`: a counter of value 0 is treated as missing (42_hotp.md R168). -/
  zeroCounterMissing : Bool
  deriving DecidableEq, Repr

/-- The defaults of 00_scope.md R8. -/
def Params.standard : Params where
  keyMax := 256
  codeMax := 16
  zeroCounterMissing := false

/-- FREE VALUE (log entry 3): the value the time source shows on `now_i` at its `n`-th sample, whole seconds.
"The spec puts no law on the value" (60_exceptions.md R226; U16). -/
opaque Config.timeSource : Nat → Dword

/-- FREE VALUE (log entry 4): how many port slots (host transactions, or moments with none) pass between the `n`-th accepted
write of `CMD` and the completion of its command: "finite, otherwise unspecified" (70_reset_and_hazards.md R245; U15). DESIGN CHOICE, unsafe between two
runs: it depends on the count alone, not on the key or the token, where R250 and U22 make no claim (log entry 16). -/
opaque Config.busySlots : Nat → Nat

/-- FREE VALUE (log entry 5): what the `n`-th read made while `BUSY = 1` returns in the bits that
70_reset_and_hazards.md R245 leaves unspecified (U13). DESIGN CHOICE, unsafe between two runs: it depends on the count alone,
not on the key, the token or a partly written result, where R245 allows "any 32-bit value; it may be a partly written result"
(log entry 16). -/
opaque Config.busyRead : Nat → Word

/-- FREE VALUE (log entry 6): `BASE` divided by 512 (00_scope.md R8: `BASE` is a multiple of 512 the platform chooses; U18). -/
opaque Config.baseBlock : Nat

/-- `BASE`: "where the platform places the block's 512-byte register space" (00_scope.md R8). -/
def Config.base : Nat := 512 * Config.baseBlock

end Sys2Proof
end

