-- ==== Sys2Proof/WellFormed.lean ====
section
/-! DEFINITION. WellFormed.lean: the checks on terms the model is given: build parameters (00_scope.md R8) and command words
(30_encoding.md R90, R93). An `Instr` has no operand, so every `Instr` is well formed and there is nothing to check in one. -/

namespace Sys2Proof

/-- The constraints of 00_scope.md R8: `1 ≤ KEY_MAX ≤ 2^16 − 1` and `6 ≤ CODE_MAX ≤ 64`. -/
def Params.wf (p : Params) : Bool :=
  1 ≤ p.keyMax && p.keyMax ≤ 65535 && 6 ≤ p.codeMax && p.codeMax ≤ 64

/-- A legal command word: "`RSV` … must be 0 in every legal command" and `OPC` is one of 0x01 .. 0x05
(30_encoding.md R90, R92 step 3). -/
def Word.isLegalCommand (w : Word) : Bool :=
  w.extractLsb' 8 24 == 0 && 1 ≤ (w.extractLsb' 0 8).toNat && (w.extractLsb' 0 8).toNat ≤ 5

end Sys2Proof
end

