-- ==== Sys2Proof/Decode.lean ====
section
/-! DEFINITION. Decode.lean: the command word (30_encoding.md R90 to R94). `decode` is total on every 32-bit word and rejects
a reserved word by name; `encode` gives the words of R93. What an accepted reserved word does (it raises `IllegalCommand`) is
`illegalCommand` of Machine/Ops.lean. -/

namespace Sys2Proof

/-- Why a command word is none of the five (30_encoding.md R94). -/
inductive DecodeReject where
  /-- A non-zero `RSV` field, bits 31:8. -/
  | reservedField
  /-- `RSV` is 0 and `OPC` is 0x00 or 0x06 to 0xFF. -/
  | reservedOpcode
  deriving DecidableEq, Repr

/-- `OPC`, bits 7:0 of the command word (30_encoding.md R90). -/
def opcField (w : Word) : Byte := w.extractLsb' 0 8

/-- `RSV`, bits 31:8 of the command word (30_encoding.md R90). -/
def rsvField (w : Word) : BitVec 24 := w.extractLsb' 8 24

/-- The opcode map of 30_encoding.md R93 on the field `OPC`. -/
def opcodeInstr (opc : Nat) : Option Instr :=
  match opc with
  | 0x01 => some .encode
  | 0x02 => some .hmac
  | 0x03 => some .hotp
  | 0x04 => some .verify
  | 0x05 => some .clear
  | _ => none

/-- The decoder: full-word match, no don't-care bit (30_encoding.md R93, R94). -/
def decode (w : Word) : Except DecodeReject Instr :=
  if rsvField w ≠ 0 then .error .reservedField
  else match opcodeInstr (opcField w).toNat with
    | some i => .ok i
    | none => .error .reservedOpcode

/-- The words of 30_encoding.md R93. -/
def encode (i : Instr) : Word :=
  match i with
  | .encode => 0x00000001
  | .hmac => 0x00000002
  | .hotp => 0x00000003
  | .verify => 0x00000004
  | .clear => 0x00000005

/-- The instruction read from a row of spec/opcode_table.json whose `nbits` bits are `w` (bit 0 least significant). "Every
command is one 32-bit word" (30_encoding.md R103): a number that needs more than 32 bits is no command word. -/
def decodeTableWord (nbits w : Nat) : Option Instr :=
  let v := w % 2 ^ nbits
  if v < 2 ^ 32 then (decode (BitVec.ofNat 32 v)).toOption else none

end Sys2Proof
end

