-- ==== Sys2Proof/Machine/Bytes.lean ====
section
/-! DEFINITION. Machine/Bytes.lean: byte order (00_scope.md R10, 20_memory.md R70 to R72, 40_counter_codec.md R120). Every
conversion between a number and a byte string is here, most significant byte first. -/

namespace Sys2Proof.Machine

open Sys2Proof

/-- `be64(c)`, the counter encoding (40_counter_codec.md R120): `e[0] = c[63:56]` … `e[7] = c[7:0]`. -/
def be64 (c : Dword) : Vector Byte 8 :=
  #v[c.extractLsb' 56 8, c.extractLsb' 48 8, c.extractLsb' 40 8, c.extractLsb' 32 8,
     c.extractLsb' 24 8, c.extractLsb' 16 8, c.extractLsb' 8 8, c.extractLsb' 0 8]

/-- `be32(v)` (00_scope.md R10). -/
def be32 (v : Word) : Vector Byte 4 :=
  #v[v.extractLsb' 24 8, v.extractLsb' 16 8, v.extractLsb' 8 8, v.extractLsb' 0 8]

/-- `from_be32` of the four bytes `a`, `b`, `c`, `d` in string order (00_scope.md R10): `a` is bits 31:24. -/
def fromBe32 (a b c d : Byte) : Word := a ++ b ++ c ++ d

/-- The 64-bit value whose bits 63:32 are `hi` and whose bits 31:0 are `lo` (30_encoding.md R102). -/
def joinHalves (hi lo : Word) : Dword := hi ++ lo

/-- Bits 63:32 of a 64-bit register. -/
def hiHalf (d : Dword) : Word := d.extractLsb' 32 32

/-- Bits 31:0 of a 64-bit register. -/
def loHalf (d : Dword) : Word := d.extractLsb' 0 32

end Sys2Proof.Machine
end

