-- ==== Sys2Proof/Machine/State.lean ====
section
/-! DEFINITION. Machine/State.lean: the state of the TOTP-TFA core as plain data (10_state.md R20), the names of its port
registers (20_memory.md R63), what reaches the block from outside, and the state after reset (70_reset_and_hazards.md R240). -/

namespace Sys2Proof.Machine

open Sys2Proof

/-- No step of this machine faults: the spec gives every command and every port access an effect, and never a stuck block
("Never `stuck`: every command terminates", 93_implementation_defined.md U15). Errors of a command are `ErrKind`, reported in
`ERR`. This closed inductive therefore has no constructor, raised by nobody, which is safe. -/
inductive Fault : Type
  deriving DecidableEq, Repr

/-- The refusals of the model. -/
inductive Refusal where
  /-- Raised only by an arm of `exec` whose instruction has no meaning yet, under its mnemonic of spec/opcode_table.json; safe
  (the run stops). No arm of this model raises it. -/
  | notModelled (mnemonic : String)
  deriving DecidableEq, Repr

/-- The error kinds of 60_exceptions.md R210. -/
inductive ErrKind where
  /-- Code 1: a required argument is absent or empty (60_exceptions.md R211). -/
  | missingParameter
  /-- Code 2: an operand the block cannot hold or use (60_exceptions.md R212). -/
  | invalidParameter
  /-- Code 3: a reserved command word (60_exceptions.md R216). -/
  | illegalCommand
  deriving DecidableEq, Repr

/-- The operand bank of 10_state.md R23. A byte buffer is the list of the bytes pushed so far: `KEY_LEN` and `TOKEN_LEN` are
the lists' lengths, and "bytes at and beyond the length are 0" (R45) is the list's end (log entry 8). -/
structure OperandBank where
  /-- `COUNTER`, 64 bits. -/
  counter : Dword
  /-- `CNT_VALID`, `STATUS` bit 8. -/
  cntValid : Bool
  /-- `CODE_LEN`, 32 bits. -/
  codeLen : Word
  /-- `STEP`, 32 bits, in seconds. -/
  step : Word
  /-- `ALLOW`, 32 bits. -/
  allow : Word
  /-- `NOW`, 64 bits, whole seconds. -/
  now : Dword
  /-- `NOW_VALID`, `STATUS` bit 9. -/
  nowValid : Bool
  /-- `KEY[0 .. KEY_LEN − 1]`, whose length is `KEY_LEN`. -/
  key : Bytes
  /-- `KEY_OVF`, `STATUS` bit 10. -/
  keyOvf : Bool
  /-- `TOKEN[0 .. TOKEN_LEN − 1]`, whose length is `TOKEN_LEN`. -/
  token : Bytes
  /-- `TOK_OVF`, `STATUS` bit 11. -/
  tokOvf : Bool
  deriving DecidableEq, Repr

/-- The defaults of 10_state.md R23, which are also the reset values (R55). -/
def OperandBank.default : OperandBank where
  counter := 0
  cntValid := false
  codeLen := 6
  step := 30
  allow := 0
  now := 0
  nowValid := false
  key := []
  keyOvf := false
  token := []
  tokOvf := false

/-- The result bank of 10_state.md R30. `CODE` is the list of its first `CODE_OUT_LEN` bytes; "`CODE[j]` for
`j ≥ CODE_OUT_LEN` is 0" (R33) is the list's end (log entry 8). -/
structure ResultBank where
  /-- `ENC[0 .. 7]`. -/
  enc : Vector Byte 8
  /-- `DIGEST[0 .. 19]`. -/
  digest : Vector Byte 20
  /-- `OFFSET`, 4 bits. -/
  offset : BitVec 4
  /-- `TRUNC`, 31 bits. -/
  trunc : BitVec 31
  /-- `CODEVAL`, 20 bits. -/
  codeVal : BitVec 20
  /-- `CODE[0 .. CODE_OUT_LEN − 1]`, whose length is `CODE_OUT_LEN`. -/
  code : Bytes
  /-- `TSTEP`, 64 bits. -/
  tstep : Dword
  /-- `NOWL`, 64 bits. -/
  nowl : Dword
  /-- `MATCH`, `STATUS` bit 3. -/
  matched : Bool
  /-- `WRAP`, `STATUS` bit 4. -/
  wrap : Bool
  deriving DecidableEq, Repr

/-- The reset values of 10_state.md R30. -/
def ResultBank.cleared : ResultBank where
  enc := Vector.replicate 8 0
  digest := Vector.replicate 20 0
  offset := 0
  trunc := 0
  codeVal := 0
  code := []
  tstep := 0
  nowl := 0
  matched := false
  wrap := false

/-- The members of the result bank, as the write sets of 10_state.md R31 name them (`CODE` and `CODE_OUT_LEN`, which every
write set that has one has both, are one member here: they share one list). -/
inductive ResMember where
  | enc | digest | offset | trunc | codeVal | code | tstep | nowl | matched | wrap
  deriving DecidableEq, Repr

/-- The flags of `STATUS` that belong to neither bank (10_state.md R41): bits 0, 1 and 2. -/
structure Status where
  /-- `BUSY`, bit 0. -/
  busy : Bool
  /-- `DONE`, bit 1. -/
  done : Bool
  /-- `ERR`, bit 2. -/
  err : Bool
  deriving DecidableEq, Repr

/-- The port registers of 20_memory.md R63, by name. -/
inductive Reg where
  | cmd | status | err | lastCmd
  | counterLo | counterHi | codeLen | step | allow | nowLo | nowHi
  | keyPush | keyLen | tokenPush | tokenLen
  | encHi | encLo | digest (n : Fin 5) | offset | trunc | codeVal | codeOutLen
  | tstepLo | tstepHi | nowlLo | nowlHi
  | code (j : Fin 64)
  deriving DecidableEq, Repr

/-- The column "access" of 20_memory.md R63. -/
inductive Access where
  | rw | ro | wo
  deriving DecidableEq, Repr

/-- What reaches the block from outside, one event at a time (00_scope.md R15, 20_memory.md R60, R75). A port address is the
word offset `off / 4`, 0 to 127 (R61), so a misaligned or narrower access cannot be written down. -/
inductive Event where
  /-- A host write `MemWrite(4 * word, 4, v)`. -/
  | write (word : BitVec 7) (v : Word)
  /-- A host read `MemRead(4 * word, 4)`. -/
  | read (word : BitVec 7)
  /-- The host's `wait`: reads of `STATUS` until one returns `BUSY = 0`, at least one (30_encoding.md R105; log entry 12). -/
  | wait
  /-- The platform applies the block's one reset (70_reset_and_hazards.md R240, R241). -/
  | reset
  deriving DecidableEq, Repr

/-- The model's own counters (log entries 3 to 5): how many values of each free kind have been drawn. Not the spec's state. -/
structure FreeCounters where
  /-- Samples taken of `now_i`. -/
  time : Nat
  /-- Commands accepted, each with a busy time of its own. -/
  slots : Nat
  /-- Reads made while `BUSY = 1`. -/
  reads : Nat
  deriving DecidableEq, Repr

/-- The state: the spec's own (10_state.md R20), the build parameters, and what stands for the agents outside the block
(log entries 1 to 5). The hidden state of R50 "a model need not carry" (log entry 9). -/
structure State where
  /-- The build parameters (00_scope.md R8); no step changes them (log entry 2). -/
  params : Params
  /-- The operand bank (10_state.md R23). -/
  ops : OperandBank
  /-- The result bank (10_state.md R30). -/
  res : ResultBank
  /-- `STATUS` bits 2:0 (10_state.md R41). -/
  status : Status
  /-- `ERR` (10_state.md R42). -/
  err : Word
  /-- `LAST_CMD` (10_state.md R44); while `BUSY = 1`, the command being executed (R22). -/
  lastCmd : Word
  /-- The model's own: port slots left before the running command completes (log entry 4). -/
  busyLeft : Nat
  /-- The model's own: free values drawn so far (log entries 3 to 5). -/
  free : FreeCounters
  /-- The model's own: the events still to reach the block, in port order (20_memory.md R75; log entry 1). -/
  port : List Event
  /-- The model's own: the values the host's reads returned, newest first (log entry 1). -/
  replies : List Word
  deriving DecidableEq, Repr

/-- The state after reset (10_state.md R55, 70_reset_and_hazards.md R240), with default build parameters and nothing arriving
at the port. -/
def State.reset : State where
  params := Params.standard
  ops := OperandBank.default
  res := ResultBank.cleared
  status := { busy := false, done := false, err := false }
  err := 0
  lastCmd := 0
  busyLeft := 0
  free := { time := 0, slots := 0, reads := 0 }
  port := []
  replies := []

/-- How the body of a command ends (30_encoding.md R92 step 5): it finishes, or it raises an error with the information bits
of `ERR` (00_scope.md R13). -/
inductive CmdEnd where
  | finished (s : State)
  | raised (kind : ErrKind) (info : Word) (s : State)
  deriving DecidableEq, Repr

end Sys2Proof.Machine
end

