-- ==== Sys2Proof/Machine/Flags.lean ====
section
/-! DEFINITION. Machine/Flags.lean: the `STATUS` and `ERR` registers (10_state.md R41 to R43, 60_exceptions.md R210 to R212).
Each flag has one home in the state; the words the host reads are put together here. -/

namespace Sys2Proof.Machine

open Sys2Proof

/-- The word with bit `n` equal to `b` and every other bit 0. -/
def flagBit (b : Bool) (n : Nat) : Word := if b then BitVec.ofNat 32 (2 ^ n) else 0

/-- `STATUS` as the idle block shows it (10_state.md R41). -/
def statusWord (s : State) : Word :=
  flagBit s.status.busy 0 ||| flagBit s.status.done 1 ||| flagBit s.status.err 2
    ||| flagBit s.res.matched 3 ||| flagBit s.res.wrap 4
    ||| flagBit s.ops.cntValid 8 ||| flagBit s.ops.nowValid 9
    ||| flagBit s.ops.keyOvf 10 ||| flagBit s.ops.tokOvf 11

/-- The defined bits of `STATUS` other than `BUSY` and `DONE`: 11:8 and 4:2 (10_state.md R41). -/
def statusUnspecifiedMask : Word := 0x00000F1C

/-- A read of `STATUS` while `BUSY = 1`: "`BUSY = 1`, `DONE = 0`, and unspecified values in its other defined bits"
(70_reset_and_hazards.md R245); `free` is the unspecified value. -/
def busyStatusWord (free : Word) : Word := (free &&& statusUnspecifiedMask) ||| 0x00000001

/-- `ERR.CODE` of an error kind (60_exceptions.md R210). -/
def ErrKind.code (k : ErrKind) : Word :=
  match k with
  | .missingParameter => 1
  | .invalidParameter => 2
  | .illegalCommand => 3

/-- `ERR` bit 8 (60_exceptions.md R211). -/
def missKey : Nat := 8
/-- `ERR` bit 9 (60_exceptions.md R211). -/
def missCounter : Nat := 9
/-- `ERR` bit 10 (60_exceptions.md R211). -/
def missToken : Nat := 10
/-- `ERR` bit 16 (60_exceptions.md R212). -/
def badKey : Nat := 16
/-- `ERR` bit 17 (60_exceptions.md R212). -/
def badToken : Nat := 17
/-- `ERR` bit 18 (60_exceptions.md R212). -/
def badStep : Nat := 18
/-- `ERR` bit 19 (60_exceptions.md R212). -/
def badCodeLen : Nat := 19

/-- The value `raise K(info)` writes to `ERR`: `code(K) | info` (60_exceptions.md R214). -/
def errWord (k : ErrKind) (info : Word) : Word := k.code ||| info

/-- `ERR.CODE`, bits 3:0 (10_state.md R42). -/
def errCode (e : Word) : BitVec 4 := e.extractLsb' 0 4

/-- The `MISS_*` bits, 10:8 of `ERR` (10_state.md R42). -/
def errMissBits (e : Word) : BitVec 3 := e.extractLsb' 8 3

/-- The `BAD_*` bits, 19:16 of `ERR` (10_state.md R42). -/
def errBadBits (e : Word) : BitVec 4 := e.extractLsb' 16 4

end Sys2Proof.Machine
end

