-- ==== Sys2Proof/Machine/Sha1.lean ====
section
/-! DEFINITION. Machine/Sha1.lean: SHA-1 and HMAC-SHA1 as 41_hmac_sha1.md rules R130 to R138 write them. The spec itself marks
these rules as general knowledge (93_implementation_defined.md G1, G2; log entry 10). `HMAC_SHA1` is a total function with no failure
(60_exceptions.md R217). -/

namespace Sys2Proof.Machine

open Sys2Proof

/-- `rotl_32(x, n)` for 0 < n < 32 (00_scope.md R9). -/
def rotl32 (x : Word) (n : Nat) : Word := (x <<< n) ||| (x >>> (32 - n))

/-- `Ch` (41_hmac_sha1.md R130). -/
def shaCh (b c d : Word) : Word := (b &&& c) ||| (~~~b &&& d)

/-- `Parity` (41_hmac_sha1.md R130). -/
def shaParity (b c d : Word) : Word := b ^^^ c ^^^ d

/-- `Maj` (41_hmac_sha1.md R130). -/
def shaMaj (b c d : Word) : Word := (b &&& c) ||| (b &&& d) ||| (c &&& d)

/-- `f_t` (41_hmac_sha1.md R130). -/
def shaF (t : Nat) (b c d : Word) : Word :=
  if t ≤ 19 then shaCh b c d
  else if t ≤ 39 then shaParity b c d
  else if t ≤ 59 then shaMaj b c d
  else shaParity b c d

/-- `K_t` (41_hmac_sha1.md R130). -/
def shaK (t : Nat) : Word :=
  if t ≤ 19 then 0x5A827999
  else if t ≤ 39 then 0x6ED9EBA1
  else if t ≤ 59 then 0x8F1BBCDC
  else 0xCA62C1D6

/-- A chaining value `(H0, H1, H2, H3, H4)`, or the working words `a` to `e` (41_hmac_sha1.md R132, R133). -/
structure ShaWords where
  h0 : Word
  h1 : Word
  h2 : Word
  h3 : Word
  h4 : Word
  deriving DecidableEq, Repr

/-- The initial chaining value (41_hmac_sha1.md R132). -/
def shaInit : ShaWords where
  h0 := 0x67452301
  h1 := 0xEFCDAB89
  h2 := 0x98BADCFE
  h3 := 0x10325476
  h4 := 0xC3D2E1F0

/-- The number `z` of zero bytes of padding (41_hmac_sha1.md R131; 90_conflicts.md C7). -/
def shaPadZeros (len : Nat) : Nat := (119 - len % 64) % 64

/-- `pad(M)` (41_hmac_sha1.md R131), for `M` below 2^61 bytes (log entry 14). -/
def shaPad (m : Bytes) : Bytes :=
  m ++ [0x80] ++ List.replicate (shaPadZeros m.length) 0x00 ++ (be64 (BitVec.ofNat 64 (8 * m.length))).toList

/-- `from_be32(B[4*t .. 4*t + 3])` (41_hmac_sha1.md R133). -/
def shaBlockWord (block : Bytes) (t : Nat) : Word :=
  fromBe32 (block.getD (4 * t) 0) (block.getD (4 * t + 1) 0) (block.getD (4 * t + 2) 0) (block.getD (4 * t + 3) 0)

/-- One more word of the message schedule, `W[t]` for t ≥ 16, after `W[0 .. t−1]` (41_hmac_sha1.md R133). -/
def shaExtend (w : List Word) (t : Nat) : List Word :=
  w ++ [rotl32 (w.getD (t - 3) 0 ^^^ w.getD (t - 8) 0 ^^^ w.getD (t - 14) 0 ^^^ w.getD (t - 16) 0) 1]

/-- The message schedule `W[0 .. 79]` of a block (41_hmac_sha1.md R133). -/
def shaSchedule (block : Bytes) : List Word :=
  (List.range' 16 64).foldl shaExtend ((List.range 16).map (shaBlockWord block))

/-- Round `t` on the working words (41_hmac_sha1.md R133): `a` takes `T`, `b` the old `a`, `c` the rotated old `b`, `d` the
old `c`, `e` the old `d`. -/
def shaRound (w : List Word) (v : ShaWords) (t : Nat) : ShaWords where
  h0 := rotl32 v.h0 5 + shaF t v.h1 v.h2 v.h3 + v.h4 + shaK t + w.getD t 0
  h1 := v.h0
  h2 := rotl32 v.h1 30
  h3 := v.h2
  h4 := v.h3

/-- `compress(H, B)` (41_hmac_sha1.md R133). -/
def shaCompress (h : ShaWords) (block : Bytes) : ShaWords :=
  let w := shaSchedule block
  let v := (List.range 80).foldl (shaRound w) h
  { h0 := h.h0 + v.h0, h1 := h.h1 + v.h1, h2 := h.h2 + v.h2, h3 := h.h3 + v.h3, h4 := h.h4 + v.h4 }

/-- The `i`-th 64-byte block `P[64*i .. 64*i + 63]` (41_hmac_sha1.md R134). -/
def shaBlock (p : Bytes) (i : Nat) : Bytes := (p.drop (64 * i)).take 64

/-- The last chaining value of `SHA1(M)` (41_hmac_sha1.md R134). -/
def sha1Words (m : Bytes) : ShaWords :=
  let p := shaPad m
  (List.range (p.length / 64)).foldl (fun h i => shaCompress h (shaBlock p i)) shaInit

/-- `be32(H0) || … || be32(H4)` (41_hmac_sha1.md R134). -/
def ShaWords.toBytes (h : ShaWords) : Vector Byte 20 :=
  be32 h.h0 ++ be32 h.h1 ++ be32 h.h2 ++ be32 h.h3 ++ be32 h.h4

/-- `SHA1(M)` (41_hmac_sha1.md R134). -/
def sha1 (m : Bytes) : Vector Byte 20 := (sha1Words m).toBytes

/-- `K0(K)`, the 64-byte padded key block (41_hmac_sha1.md R137). -/
def hmacKeyBlock (k : Bytes) : Bytes :=
  if k.length > 64 then (sha1 k).toList ++ List.replicate 44 0x00
  else k ++ List.replicate (64 - k.length) 0x00

/-- `HMAC_SHA1(K, m)` (41_hmac_sha1.md R136, R138). -/
def hmacSha1 (k m : Bytes) : Vector Byte 20 :=
  let k0 := hmacKeyBlock k
  let inner := sha1 (k0.map (· ^^^ 0x36) ++ m)
  sha1 (k0.map (· ^^^ 0x5C) ++ inner.toList)

end Sys2Proof.Machine
end

