-- ==== Sys2Proof/Machine/HotpFn.lean ====
section
/-! DEFINITION. Machine/HotpFn.lean: the pure functions of the HOTP Engine, 42_hotp.md rules R160 to R165. -/

namespace Sys2Proof.Machine

open Sys2Proof

/-- `offset = d[19] & 0x0F`, the first half of `DT(d)` (42_hotp.md R161). -/
def dtOffset (d : Vector Byte 20) : BitVec 4 := (d[19] &&& 0x0F).setWidth 4

/-- `d[offset + k]` for k = 0 to 3: "the read is always inside the 20 bytes" (42_hotp.md R162). -/
def dtByte (d : Vector Byte 20) (offset : BitVec 4) (k : Fin 4) : Byte :=
  d[offset.toNat + k.val]'(by have := offset.isLt; have := k.isLt; omega)

/-- `truncated`, the second half of `DT(d)` (42_hotp.md R161), on unsigned values of 32 bits whose bit 31 is 0 (R162). -/
def dtTruncated (d : Vector Byte 20) : BitVec 31 :=
  let o := dtOffset d
  ((((dtByte d o 0 &&& 0x7F).setWidth 32 : Word) <<< 24) ||| (((dtByte d o 1).setWidth 32 : Word) <<< 16)
    ||| (((dtByte d o 2).setWidth 32 : Word) <<< 8) ||| ((dtByte d o 3).setWidth 32 : Word)).setWidth 31

/-- The modulus of step 5: always 10^6, "not parameterized by `codeLength`" (42_hotp.md R163). -/
def codeModulus : Nat := 1000000

/-- `codeValue = truncated mod 1000000` (42_hotp.md R163). -/
def codeValue (truncated : BitVec 31) : BitVec 20 := BitVec.ofNat 20 (truncated.toNat % codeModulus)

/-- `g(v)`, the number of decimal digits of `v ≤ 999999`, with `g(0) = 1` (42_hotp.md R164). -/
def digitCount (v : Nat) : Nat :=
  if v ≤ 9 then 1
  else if v ≤ 99 then 2
  else if v ≤ 999 then 3
  else if v ≤ 9999 then 4
  else if v ≤ 99999 then 5
  else 6

/-- `dec(v)` (42_hotp.md R164): byte `j` is `0x30 + ((v div 10^(g(v) − 1 − j)) mod 10)`. -/
def decimal (v : Nat) : Bytes :=
  (List.range (digitCount v)).map fun j => BitVec.ofNat 8 (0x30 + v / 10 ^ (digitCount v - 1 - j) % 10)

/-- `RENDER(v, n)` (42_hotp.md R164): padded on the left with `'0'` = 0x30, never cut. -/
def render (v n : Nat) : Bytes :=
  if n > digitCount v then List.replicate (n - digitCount v) 0x30 ++ decimal v else decimal v

/-- What `HOTP_FN` returns (42_hotp.md R165). -/
structure HotpOut where
  enc : Vector Byte 8
  digest : Vector Byte 20
  offset : BitVec 4
  trunc : BitVec 31
  codeVal : BitVec 20
  code : Bytes
  deriving DecidableEq, Repr

/-- `HOTP_FN(K, c, n)` (42_hotp.md R165). -/
def hotpFn (key : Bytes) (c : Dword) (n : Nat) : HotpOut :=
  let enc := be64 c
  let dig := hmacSha1 key enc.toList
  let trunc := dtTruncated dig
  let val := codeValue trunc
  { enc := enc, digest := dig, offset := dtOffset dig, trunc := trunc, codeVal := val, code := render val.toNat n }

end Sys2Proof.Machine
end

