-- ==== Sys2Proof/Machine/Operands.lean ====
section
/-! DEFINITION. Machine/Operands.lean: every operand form (30_encoding.md R95 to R102): the effect of a host write to each
operand register, the two push registers, and the checks each command makes of the operands it reads (41_hmac_sha1.md R141,
42_hotp.md R167, 43_totp_verify.md R186). -/

namespace Sys2Proof.Machine

open Sys2Proof

/-- Append a byte to a buffer of capacity `cap`, or drop it and set the overflow flag (30_encoding.md R99, R100). -/
def pushByte (cap : Nat) (b : Byte) (buf : Bytes) (ovf : Bool) : Bytes × Bool :=
  if buf.length < cap then (buf ++ [b], ovf) else (buf, true)

/-- A write of `COUNTER_LO` (30_encoding.md R95). -/
def OperandBank.writeCounterLo (o : OperandBank) (v : Word) : OperandBank :=
  { o with counter := joinHalves (hiHalf o.counter) v, cntValid := true }

/-- A write of `COUNTER_HI` (30_encoding.md R95). -/
def OperandBank.writeCounterHi (o : OperandBank) (v : Word) : OperandBank :=
  { o with counter := joinHalves v (loHalf o.counter), cntValid := true }

/-- A write of `CODE_LEN` (30_encoding.md R96). -/
def OperandBank.writeCodeLen (o : OperandBank) (v : Word) : OperandBank := { o with codeLen := v }

/-- A write of `STEP` (30_encoding.md R97). -/
def OperandBank.writeStep (o : OperandBank) (v : Word) : OperandBank := { o with step := v }

/-- A write of `ALLOW` (30_encoding.md R97). -/
def OperandBank.writeAllow (o : OperandBank) (v : Word) : OperandBank := { o with allow := v }

/-- A write of `NOW_LO` (30_encoding.md R98). -/
def OperandBank.writeNowLo (o : OperandBank) (v : Word) : OperandBank :=
  { o with now := joinHalves (hiHalf o.now) v, nowValid := true }

/-- A write of `NOW_HI` (30_encoding.md R98). -/
def OperandBank.writeNowHi (o : OperandBank) (v : Word) : OperandBank :=
  { o with now := joinHalves v (loHalf o.now), nowValid := true }

/-- A write of `KEY_PUSH`: bits 7:0 of the value, capacity `KEY_MAX` (30_encoding.md R99). -/
def OperandBank.pushKey (p : Params) (o : OperandBank) (v : Word) : OperandBank :=
  let r := pushByte p.keyMax (v.extractLsb' 0 8) o.key o.keyOvf
  { o with key := r.1, keyOvf := r.2 }

/-- A write of `TOKEN_PUSH`: bits 7:0 of the value, capacity `CODE_MAX` (30_encoding.md R100). -/
def OperandBank.pushToken (p : Params) (o : OperandBank) (v : Word) : OperandBank :=
  let r := pushByte p.codeMax (v.extractLsb' 0 8) o.token o.tokOvf
  { o with token := r.1, tokOvf := r.2 }

/-- `miss` of `HMAC` (41_hmac_sha1.md R141). -/
def hmacMiss (o : OperandBank) : Word := flagBit (o.key.length == 0) missKey

/-- `bad` of `HMAC` (41_hmac_sha1.md R141). -/
def hmacBad (o : OperandBank) : Word := flagBit o.keyOvf badKey

/-- `miss` of `HOTP` (42_hotp.md R167). -/
def hotpMiss (p : Params) (o : OperandBank) : Word :=
  flagBit (o.key.length == 0) missKey ||| flagBit (!o.cntValid) missCounter
    ||| flagBit (p.zeroCounterMissing && o.counter == 0) missCounter

/-- `bad` of `HOTP` (42_hotp.md R167). -/
def hotpBad (p : Params) (o : OperandBank) : Word :=
  flagBit o.keyOvf badKey ||| flagBit (o.codeLen.toNat > p.codeMax) badCodeLen

/-- `miss` of `VERIFY` (43_totp_verify.md R186). -/
def verifyMiss (o : OperandBank) : Word :=
  flagBit (o.key.length == 0) missKey ||| flagBit (o.token.length == 0) missToken

/-- `bad` of `VERIFY` (43_totp_verify.md R186). -/
def verifyBad (o : OperandBank) : Word :=
  flagBit o.keyOvf badKey ||| flagBit o.tokOvf badToken ||| flagBit (o.step == 0) badStep

/-- The time `VERIFY` uses (43_totp_verify.md R185, 60_exceptions.md R226, R227): `NOW` when it was injected, else what the
time source shows at this sample. -/
def usedTime (s : State) : Dword := if s.ops.nowValid then s.ops.now else Config.timeSource s.free.time

/-- The state after `VERIFY` has taken its time: one sample of `now_i` is drawn, and only when `NOW_VALID = 0`
(60_exceptions.md R226). -/
def sampleTime (s : State) : State :=
  if s.ops.nowValid then s else { s with free := { s.free with time := s.free.time + 1 } }

end Sys2Proof.Machine
end

