-- ==== Sys2Proof/Machine/Ops.lean ====
section
/-! DEFINITION. Machine/Ops.lean: the life of a command (30_encoding.md R92), shared by every command: its start, its write
set, the gathered checks, error entry (60_exceptions.md R214), completion and operand discard (10_state.md R24). Error return
is nothing but the next accepted command: "no handler runs in the block" (60_exceptions.md R215), and `beginCommand` clears
the error. -/

namespace Sys2Proof.Machine

open Sys2Proof

/-- One member of the result bank set to its reset value of 10_state.md R30. -/
def ResultBank.clearMember (r : ResultBank) (m : ResMember) : ResultBank :=
  match m with
  | .enc => { r with enc := ResultBank.cleared.enc }
  | .digest => { r with digest := ResultBank.cleared.digest }
  | .offset => { r with offset := ResultBank.cleared.offset }
  | .trunc => { r with trunc := ResultBank.cleared.trunc }
  | .codeVal => { r with codeVal := ResultBank.cleared.codeVal }
  | .code => { r with code := ResultBank.cleared.code }
  | .tstep => { r with tstep := ResultBank.cleared.tstep }
  | .nowl => { r with nowl := ResultBank.cleared.nowl }
  | .matched => { r with matched := ResultBank.cleared.matched }
  | .wrap => { r with wrap := ResultBank.cleared.wrap }

/-- Every member of a write set set to its reset value (10_state.md R32). -/
def ResultBank.clearSet (r : ResultBank) (ws : List ResMember) : ResultBank := ws.foldl ResultBank.clearMember r

/-- The write set of `HOTP` (10_state.md R31). -/
def hotpSet : List ResMember := [.enc, .digest, .offset, .trunc, .codeVal, .code]

/-- The write sets of 10_state.md R31. -/
def writeSet (i : Instr) : List ResMember :=
  match i with
  | .encode => [.enc]
  | .hmac => [.digest]
  | .hotp => hotpSet
  | .verify => hotpSet ++ [.tstep, .nowl, .matched, .wrap]
  | .clear => hotpSet ++ [.tstep, .nowl, .matched, .wrap]

/-- Steps 1 and 2 of 30_encoding.md R92 for the command word `w`. -/
def beginCommand (w : Word) (s : State) : State :=
  { s with
    lastCmd := w
    status := { busy := true, done := false, err := false }
    res := { s.res with matched := false, wrap := false }
    err := 0 }

/-- Step 4 of 30_encoding.md R92, after steps 1 and 2. -/
def startCommand (i : Instr) (s : State) : State :=
  let b := beginCommand (encode i) s
  { b with res := b.res.clearSet (writeSet i) }

/-- Step 6 of 30_encoding.md R92, the completion: operand discard (10_state.md R24), `BUSY` to 0, `DONE` to 1. -/
def complete (s : State) : State :=
  { s with
    ops := OperandBank.default
    status := { s.status with busy := false, done := true }
    busyLeft := 0 }

/-- Error entry, `raise K(info)` of a command whose write set is `ws` (60_exceptions.md R214). -/
def raiseError (ws : List ResMember) (k : ErrKind) (info : Word) (s : State) : State :=
  complete
    { s with
      res := s.res.clearSet ws
      status := { s.status with err := true }
      err := errWord k info }

/-- The gathered checks, in the order of 60_exceptions.md R213: everything missing in one error, then, only when nothing is
missing, everything invalid in one error, then the computation. -/
def checked (miss bad : Word) (compute : State → CmdEnd) (s : State) : CmdEnd :=
  if miss ≠ 0 then .raised .missingParameter miss s
  else if bad ≠ 0 then .raised .invalidParameter bad s
  else compute s

/-- What follows the body of a command whose write set is `ws`: completion, or error entry (30_encoding.md R92). -/
def finish (ws : List ResMember) (e : CmdEnd) : State :=
  match e with
  | .finished s => complete s
  | .raised k info s => raiseError ws k info s

/-- The whole life of a legal command (30_encoding.md R92), with its body of step 5. -/
def runBody (i : Instr) (body : State → CmdEnd) (s : State) : State :=
  finish (writeSet i) (body (startCommand i s))

/-- The whole life of an accepted reserved word: `IllegalCommand`, an empty write set, no information bits (44_control.md
R202, 60_exceptions.md R216). -/
def illegalCommand (w : Word) (s : State) : State :=
  finish [] (.raised .illegalCommand 0 (beginCommand w s))

/-- The results of one `HOTP_FN` in the result bank (42_hotp.md R166, 43_totp_verify.md R185). -/
def ResultBank.storeHotp (r : ResultBank) (out : HotpOut) : ResultBank :=
  { r with
    enc := out.enc
    digest := out.digest
    offset := out.offset
    trunc := out.trunc
    codeVal := out.codeVal
    code := out.code }

end Sys2Proof.Machine
end

