-- ==== Sys2Proof/Machine/Codec.lean ====
section
/-! DEFINITION. Machine/Codec.lean: the Counter Codec's command, `ENCODE` (40_counter_codec.md R121). -/

namespace Sys2Proof.Machine

open Sys2Proof

/-- The body of `ENCODE` (40_counter_codec.md R121): it reads `COUNTER` and not `CNT_VALID`, and raises nothing. -/
def encodeBody (s : State) : CmdEnd := .finished { s with res := { s.res with enc := be64 s.ops.counter } }

/-- `ENCODE` (40_counter_codec.md R121). -/
def execEncode (s : State) : Host.Outcome State Fault Refusal := .next (runBody .encode encodeBody s)

end Sys2Proof.Machine
end

