-- ==== Sys2Proof/Machine/Control.lean ====
section
/-! DEFINITION. Machine/Control.lean: the control command, `CLEAR` (44_control.md R200). The answer to a reserved word is
`illegalCommand` of Machine/Ops.lean (R202). -/

namespace Sys2Proof.Machine

open Sys2Proof

/-- The body of `CLEAR` is empty: its write set is the whole result bank, and completion discards the operands
(44_control.md R200). -/
def clearBody (s : State) : CmdEnd := .finished s

/-- `CLEAR` (44_control.md R200). -/
def execClear (s : State) : Host.Outcome State Fault Refusal := .next (runBody .clear clearBody s)

end Sys2Proof.Machine
end

