-- ==== Sys2Proof/Machine/Hmac.lean ====
section
/-! DEFINITION. Machine/Hmac.lean: the HMAC-SHA1 core's command, `HMAC` (41_hmac_sha1.md R141). -/

namespace Sys2Proof.Machine

open Sys2Proof

/-- `DIGEST <- HMAC_SHA1(KEY, ENC)`: the message is the 8 bytes `ENC` held when the command was accepted, which `HMAC` does
not write (41_hmac_sha1.md R141). -/
def hmacCompute (s : State) : CmdEnd :=
  .finished { s with res := { s.res with digest := hmacSha1 s.ops.key s.res.enc.toList } }

/-- The body of `HMAC` (41_hmac_sha1.md R141). -/
def hmacBody (s : State) : CmdEnd := checked (hmacMiss s.ops) (hmacBad s.ops) hmacCompute s

/-- `HMAC` (41_hmac_sha1.md R141). -/
def execHmac (s : State) : Host.Outcome State Fault Refusal := .next (runBody .hmac hmacBody s)

end Sys2Proof.Machine
end

