-- ==== Sys2Proof/Machine/Hotp.lean ====
section
/-! DEFINITION. Machine/Hotp.lean: the HOTP Engine's command, `HOTP` (42_hotp.md R166 to R168). -/

namespace Sys2Proof.Machine

open Sys2Proof

/-- The computation of `HOTP` (42_hotp.md R166). -/
def hotpCompute (s : State) : CmdEnd :=
  .finished { s with res := s.res.storeHotp (hotpFn s.ops.key s.ops.counter s.ops.codeLen.toNat) }

/-- The body of `HOTP`: the checks of 42_hotp.md R167, then its computation (R166). -/
def hotpBody (s : State) : CmdEnd := checked (hotpMiss s.params s.ops) (hotpBad s.params s.ops) hotpCompute s

/-- `HOTP` (42_hotp.md R166). -/
def execHotp (s : State) : Host.Outcome State Fault Refusal := .next (runBody .hotp hotpBody s)

end Sys2Proof.Machine
end

