-- ==== Sys2Proof/Machine/TotpFn.lean ====
section
/-! DEFINITION. Machine/TotpFn.lean: the pure functions of the TOTP Verifier, 43_totp_verify.md rules R181 to R188, and its
window scan (R185, R190). -/

namespace Sys2Proof.Machine

open Sys2Proof

/-- `TSTEP_FN(n, s) = n div s`, an unsigned 64-bit by 32-bit floor division (43_totp_verify.md R181). `VERIFY` refuses `s = 0`
before it divides (R186), so no command computes the value at 0 (log entry 13). -/
def tstepFn (n : Dword) (s : Word) : Dword := n / s.setWidth 64

/-- `WINDOW(T, a, k) = (T −_64 zext_64(a)) +_64 k` (43_totp_verify.md R183). -/
def window (t : Dword) (a : Word) (k : Nat) : Dword := (t - a.setWidth 64) + BitVec.ofNat 64 k

/-- The `WRAP` test: `T < ALLOW` or `T + ALLOW > 2^64 − 1`, the sum on naturals (43_totp_verify.md R184). -/
def windowWraps (t : Dword) (a : Word) : Bool := t.toNat < a.toNat || t.toNat + a.toNat > 2 ^ 64 - 1

/-- `EQUAL(x, y)`: the same length and the same bytes (43_totp_verify.md R187). -/
def equalStrings (x y : Bytes) : Bool := x == y

/-- How the scan of `VERIFY` leaves its loop (43_totp_verify.md R190), with the window index `k` of its last iteration. -/
inductive ScanEnd where
  /-- The code of window index `k` equals the token. -/
  | found (out : HotpOut) (k : Nat)
  /-- `k = 2 * ALLOW` was tried and did not match. -/
  | exhausted (out : HotpOut) (k : Nat)
  /-- Under `ZERO_COUNTER_MISSING` the counter at window index `k` is 0 (R188). -/
  | zeroCounter (k : Nat)
  deriving DecidableEq, Repr

/-- The loop of `VERIFY` from window index `k` on, with `left = 2 * ALLOW − k` indexes after it (43_totp_verify.md R185). -/
def scanFrom (quirk : Bool) (key token : Bytes) (t : Dword) (a : Word) (left k : Nat) : ScanEnd :=
  let i := window t a k
  if quirk && i == 0 then .zeroCounter k
  else
    let out := hotpFn key i token.length
    if equalStrings out.code token then .found out k
    else match left with
      | 0 => .exhausted out k
      | left' + 1 => scanFrom quirk key token t a left' (k + 1)

/-- The whole scan: `k` goes from 0 to `2 * ALLOW` (43_totp_verify.md R183, R185). -/
def scan (quirk : Bool) (key token : Bytes) (t : Dword) (a : Word) : ScanEnd :=
  scanFrom quirk key token t a (2 * a.toNat) 0

end Sys2Proof.Machine
end

