-- ==== Sys2Proof/Machine/Totp.lean ====
section
/-! DEFINITION. Machine/Totp.lean: the TOTP Verifier's command, `VERIFY` (43_totp_verify.md R185 to R191). -/

namespace Sys2Proof.Machine

open Sys2Proof

/-- `NOWL <- n`, `TSTEP <- TSTEP_FN(n, STEP)`, and `WRAP` from the window's bounds (43_totp_verify.md R184, R185); `WRAP` is 0
before, as every command clears it when it starts. -/
def latchTime (n : Dword) (s : State) : State :=
  let t := tstepFn n s.ops.step
  { s with res := { s.res with nowl := n, tstep := t, wrap := windowWraps t s.ops.allow } }

/-- The end of the scan put into the result bank (43_totp_verify.md R185, R189), or the quirk's error (R188). -/
def scanResult (e : ScanEnd) (s : State) : CmdEnd :=
  match e with
  | .found out _ => .finished { s with res := { s.res.storeHotp out with matched := true } }
  | .exhausted out _ => .finished { s with res := s.res.storeHotp out }
  | .zeroCounter _ => .raised .missingParameter (flagBit true missCounter) s

/-- The scan of the window around `T = TSTEP_FN(n, STEP)` for the time `n`, the operands as `VERIFY` reads them
(43_totp_verify.md R185). -/
def verifyScan (n : Dword) (s : State) : ScanEnd :=
  scan s.params.zeroCounterMissing s.ops.key s.ops.token (tstepFn n s.ops.step) s.ops.allow

/-- The computation of `VERIFY` for the time `n` (43_totp_verify.md R185); the time is read once and held (R191). -/
def verifyAt (n : Dword) (s : State) : CmdEnd := scanResult (verifyScan n s) (latchTime n s)

/-- The computation of `VERIFY`: sample the time, then the scan (43_totp_verify.md R185). -/
def verifyCompute (s : State) : CmdEnd := verifyAt (usedTime s) (sampleTime s)

/-- The body of `VERIFY`: the checks of 43_totp_verify.md R186, then its computation (R185). -/
def verifyBody (s : State) : CmdEnd := checked (verifyMiss s.ops) (verifyBad s.ops) verifyCompute s

/-- `VERIFY` (43_totp_verify.md R185). -/
def execVerify (s : State) : Host.Outcome State Fault Refusal := .next (runBody .verify verifyBody s)

end Sys2Proof.Machine
end

