-- ==== Sys2Proof/Machine/Dispatch.lean ====
section
/-! DEFINITION. Machine/Dispatch.lean: exec, one arm for each constructor of Instr, each a direct call of its meaning. -/

namespace Sys2Proof.Machine

open Sys2Proof

def exec (i : Instr) (s : State) : Host.Outcome State Fault Refusal :=
  match i with
  | .encode => Sys2Proof.Machine.execEncode s
  | .hmac => Sys2Proof.Machine.execHmac s
  | .hotp => Sys2Proof.Machine.execHotp s
  | .verify => Sys2Proof.Machine.execVerify s
  | .clear => Sys2Proof.Machine.execClear s

end Sys2Proof.Machine
end

