-- ==== Sys2Proof/Machine/Port.lean ====
section
/-! DEFINITION. Machine/Port.lean: the register port (20_memory.md R60 to R66), the address map (R63), what each event does to
an idle block and to a busy one (70_reset_and_hazards.md R245), and reset (R240, R241). -/

namespace Sys2Proof.Machine

open Sys2Proof

/-- The column "offset" of 20_memory.md R63. -/
def Reg.byteOffset (r : Reg) : Nat :=
  match r with
  | .cmd => 0x000
  | .status => 0x004
  | .err => 0x008
  | .lastCmd => 0x00C
  | .counterLo => 0x010
  | .counterHi => 0x014
  | .codeLen => 0x018
  | .step => 0x01C
  | .allow => 0x020
  | .nowLo => 0x024
  | .nowHi => 0x028
  | .keyPush => 0x02C
  | .keyLen => 0x030
  | .tokenPush => 0x034
  | .tokenLen => 0x038
  | .encHi => 0x040
  | .encLo => 0x044
  | .digest n => 0x048 + 4 * n.val
  | .offset => 0x05C
  | .trunc => 0x060
  | .codeVal => 0x064
  | .codeOutLen => 0x068
  | .tstepLo => 0x06C
  | .tstepHi => 0x070
  | .nowlLo => 0x074
  | .nowlHi => 0x078
  | .code j => 0x100 + 4 * j.val

/-- The column "access" of 20_memory.md R63. -/
def Reg.access (r : Reg) : Access :=
  match r with
  | .cmd | .keyPush | .tokenPush => .wo
  | .counterLo | .counterHi | .codeLen | .step | .allow | .nowLo | .nowHi => .rw
  | .status | .err | .lastCmd | .keyLen | .tokenLen | .encHi | .encLo | .digest _ | .offset | .trunc | .codeVal
  | .codeOutLen | .tstepLo | .tstepHi | .nowlLo | .nowlHi | .code _ => .ro

/-- The column "bits" of 20_memory.md R63, "the part of the word that carries the value; the other bits read 0 and are
ignored on a write". -/
def Reg.bits (r : Reg) : Word :=
  match r with
  | .status => 0x00000F1F
  | .err => 0x000F070F
  | .keyPush | .tokenPush | .tokenLen | .codeOutLen | .code _ => 0x000000FF
  | .keyLen => 0x0000FFFF
  | .offset => 0x0000000F
  | .trunc => 0x7FFFFFFF
  | .codeVal => 0x000FFFFF
  | .cmd | .lastCmd | .counterLo | .counterHi | .codeLen | .step | .allow | .nowLo | .nowHi | .encHi | .encLo | .digest _
  | .tstepLo | .tstepHi | .nowlLo | .nowlHi => 0xFFFFFFFF

/-- The rows of 20_memory.md R63 below offset 0x100, in its order, without the reserved ones. -/
def namedRegs : List Reg :=
  ([.cmd, .status, .err, .lastCmd, .counterLo, .counterHi, .codeLen, .step, .allow, .nowLo, .nowHi, .keyPush, .keyLen,
    .tokenPush, .tokenLen] : List Reg)
  ++ ([.encHi, .encLo, .digest 0, .digest 1, .digest 2, .digest 3, .digest 4, .offset, .trunc, .codeVal, .codeOutLen,
    .tstepLo, .tstepHi, .nowlLo, .nowlHi] : List Reg)

/-- The register at a port address, or none where 20_memory.md R63 says "reserved": `CODE[j]` stands at 0x100 + 4 * j for
`j < CODE_MAX`. -/
def regAt (codeMax : Nat) (word : BitVec 7) : Option Reg :=
  if h : 64 ≤ word.toNat then
    if word.toNat - 64 < codeMax then some (.code ⟨word.toNat - 64, by have := word.isLt; omega⟩) else none
  else namedRegs.find? (fun r => r.byteOffset == 4 * word.toNat)

/-- The port address of a register: its byte offset divided by 4 (20_memory.md R61). -/
def Reg.word (r : Reg) : BitVec 7 := BitVec.ofNat 7 (r.byteOffset / 4)

/-- The value a register holds, zero-extended to 32 bits (10_state.md R29, R30); 0 for a write-only register, which holds
nothing the host can read (20_memory.md R65). -/
def Reg.value (r : Reg) (s : State) : Word :=
  match r with
  | .cmd | .keyPush | .tokenPush => 0
  | .status => statusWord s
  | .err => s.err
  | .lastCmd => s.lastCmd
  | .counterLo => loHalf s.ops.counter
  | .counterHi => hiHalf s.ops.counter
  | .codeLen => s.ops.codeLen
  | .step => s.ops.step
  | .allow => s.ops.allow
  | .nowLo => loHalf s.ops.now
  | .nowHi => hiHalf s.ops.now
  | .keyLen => BitVec.ofNat 32 s.ops.key.length
  | .tokenLen => BitVec.ofNat 32 s.ops.token.length
  | .encHi => fromBe32 s.res.enc[0] s.res.enc[1] s.res.enc[2] s.res.enc[3]
  | .encLo => fromBe32 s.res.enc[4] s.res.enc[5] s.res.enc[6] s.res.enc[7]
  | .digest n =>
    fromBe32 (s.res.digest[4 * n.val]'(by have := n.isLt; omega)) (s.res.digest[4 * n.val + 1]'(by have := n.isLt; omega))
      (s.res.digest[4 * n.val + 2]'(by have := n.isLt; omega)) (s.res.digest[4 * n.val + 3]'(by have := n.isLt; omega))
  | .offset => s.res.offset.setWidth 32
  | .trunc => s.res.trunc.setWidth 32
  | .codeVal => s.res.codeVal.setWidth 32
  | .codeOutLen => BitVec.ofNat 32 s.res.code.length
  | .tstepLo => loHalf s.res.tstep
  | .tstepHi => hiHalf s.res.tstep
  | .nowlLo => loHalf s.res.nowl
  | .nowlHi => hiHalf s.res.nowl
  | .code j => (s.res.code.getD j.val 0).setWidth 32

/-- A read of a register of the idle block: the bits outside the column "bits" read 0 (20_memory.md R63). -/
def readReg (r : Reg) (s : State) : Word := r.value s &&& r.bits

/-- What `MemRead(4 * word, 4)` returns from the idle block; a reserved offset reads 0 (20_memory.md R65). -/
def portRead (word : BitVec 7) (s : State) : Word :=
  match regAt s.params.codeMax word with
  | some r => readReg r s
  | none => 0

/-- An accepted write of `CMD` (30_encoding.md R91, R92 steps 1 and 2): the block is busy from here on, for as many port slots
as the next free value says (70_reset_and_hazards.md R245; log entry 4). -/
def acceptCommand (w : Word) (s : State) : State :=
  { beginCommand w s with
    busyLeft := Config.busySlots s.free.slots
    free := { s.free with slots := s.free.slots + 1 } }

/-- A write of a register of the idle block (30_encoding.md R91, R95 to R100); a read-only register ignores it
(20_memory.md R65). -/
def writeReg (r : Reg) (v : Word) (s : State) : State :=
  match r with
  | .cmd => acceptCommand v s
  | .counterLo => { s with ops := s.ops.writeCounterLo v }
  | .counterHi => { s with ops := s.ops.writeCounterHi v }
  | .codeLen => { s with ops := s.ops.writeCodeLen v }
  | .step => { s with ops := s.ops.writeStep v }
  | .allow => { s with ops := s.ops.writeAllow v }
  | .nowLo => { s with ops := s.ops.writeNowLo v }
  | .nowHi => { s with ops := s.ops.writeNowHi v }
  | .keyPush => { s with ops := s.ops.pushKey s.params v }
  | .tokenPush => { s with ops := s.ops.pushToken s.params v }
  | .status | .err | .lastCmd | .keyLen | .tokenLen | .encHi | .encLo | .digest _ | .offset | .trunc | .codeVal
  | .codeOutLen | .tstepLo | .tstepHi | .nowlLo | .nowlHi | .code _ => s

/-- What `MemWrite(4 * word, 4, v)` does to the idle block; a write to a reserved offset has no effect (20_memory.md R65). -/
def portWrite (word : BitVec 7) (v : Word) (s : State) : State :=
  match regAt s.params.codeMax word with
  | some r => writeReg r (v &&& r.bits) s
  | none => s

/-- The value of a read delivered to the host. -/
def reply (v : Word) (s : State) : State := { s with replies := v :: s.replies }

/-- Reset (70_reset_and_hazards.md R240, R241): every register at its reset value, a running command abandoned. The build
parameters, the events still to come, the replies already given and the count of drawn free values are no registers. -/
def applyReset (s : State) : State :=
  { State.reset with params := s.params, free := s.free, port := s.port, replies := s.replies }

/-- An event at the idle block (20_memory.md R60, R65, R66). -/
def idleEvent (e : Event) (s : State) : State :=
  match e with
  | .write word v => portWrite word v s
  | .read word => reply (portRead word s) s
  | .wait => reply (readReg .status s) s
  | .reset => applyReset s

/-- The idle block at one port slot: it acts only on an event (20_memory.md R64, 70_reset_and_hazards.md R242). -/
def idleSlot (s : State) : State :=
  match s.port with
  | [] => s
  | e :: rest => idleEvent e { s with port := rest }

/-- The next unspecified value of a busy read (70_reset_and_hazards.md R245), counted as drawn; `view` says which of its bits
the read shows. -/
def busyReply (view : Word → Word) (s : State) : State :=
  reply (view (Config.busyRead s.free.reads)) { s with free := { s.free with reads := s.free.reads + 1 } }

/-- What a read at a port address shows of the unspecified value while `BUSY = 1`: any 32-bit value, but for `STATUS`, where
`BUSY` reads 1, `DONE` 0 and the bits 10_state.md R41 does not define 0 (70_reset_and_hazards.md R245). -/
def busyView (word : BitVec 7) (free : Word) : Word := if word = Reg.status.word then busyStatusWord free else free

/-- The busy block at one port slot (70_reset_and_hazards.md R245): a write is dropped, a read returns an unspecified value, a
`wait` reads `STATUS` and, having seen `BUSY = 1`, goes on waiting (30_encoding.md R105), and reset abandons the command
(R241). -/
def busySlot (s : State) : State :=
  match s.port with
  | [] => s
  | .write _ _ :: rest => { s with port := rest }
  | .read word :: rest => busyReply (busyView word) { s with port := rest }
  | .wait :: _ => busyReply busyStatusWord s
  | .reset :: rest => applyReset { s with port := rest }

end Sys2Proof.Machine
end

