-- ==== Sys2Proof/Machine/Step.lean ====
section
/-! DEFINITION. Machine/Step.lean: one step. The block has no program counter (10_state.md R22): what stands in its place is
`STATUS.BUSY` and `LAST_CMD`, "the opcode of the command being executed". -/

namespace Sys2Proof.Machine

open Sys2Proof

/-- The sequencer runs the command word it was given: a legal one as `exec` says, a reserved one raises `IllegalCommand`
(30_encoding.md R92 step 3). -/
def runCommand (w : Word) (s : State) : Host.Outcome State Fault Refusal :=
  match decode w with
  | .ok i => exec i s
  | .error _ => .next (illegalCommand w s)

/-- One step: the busy block completes its command when no port slot is left before that, and otherwise lets one slot pass;
the idle block takes the next event (00_scope.md R15, 20_memory.md R75, 70_reset_and_hazards.md R245). -/
def step (s : State) : Host.Outcome State Fault Refusal :=
  if s.status.busy then
    match s.busyLeft with
    | 0 => runCommand s.lastCmd s
    | n + 1 => .next (busySlot { s with busyLeft := n })
  else .next (idleSlot s)

/-- `s` with a command word where the next step takes it: the state just after an accepted write of that word to `CMD`, with
no port slot left before completion (log entry 7). -/
def State.withFetchWord (s : State) (nbits w : Nat) : State :=
  { beginCommand (BitVec.ofNat 32 (w % 2 ^ nbits)) s with busyLeft := 0 }

end Sys2Proof.Machine
end

