-- ==== Sys2Proof/Machine/HostProgram.lean ====
section
/-! DEFINITION. Machine/HostProgram.lean: the host's side of the port: accesses at platform addresses (00_scope.md R8,
20_memory.md R61, R64), the notation for host programs (30_encoding.md R105, R106) and the document's two calls in it (R107). -/

namespace Sys2Proof.Machine

open Sys2Proof

/-- One access of the host's bus, at a platform address. -/
inductive BusAccess where
  | write (address size : Nat) (v : Word)
  | read (address size : Nat)
  deriving DecidableEq, Repr

/-- The port address of a bus access: none for an access narrower or wider than 32 bits, misaligned, or outside the block's
512 bytes at `BASE`, which "cannot be expressed on the port" (20_memory.md R61, R64; 93_implementation_defined.md U19; log entry 11). -/
def busWord (address size : Nat) : Option (BitVec 7) :=
  if size = 4 ∧ address % 4 = 0 ∧ Config.base ≤ address ∧ address < Config.base + 512 then
    some (BitVec.ofNat 7 ((address - Config.base) / 4))
  else none

/-- The port transaction a bus access makes (20_memory.md R60), if it can be expressed on the port. -/
def BusAccess.event (a : BusAccess) : Option Event :=
  match a with
  | .write address size v => (busWord address size).map fun w => .write w v
  | .read address size => (busWord address size).map fun w => .read w

/-- A line of the host notation: the four of 30_encoding.md R105 and the pseudo-instructions of R106. A text is a list of
characters. -/
inductive HostLine where
  | wr (r : Reg) (v : Word)
  | rd (r : Reg)
  | cmd (i : Instr)
  | wait
  | key (text : List Char)
  | keyb (bytes : Bytes)
  | token (text : List Char)
  | ctr (v : Dword)
  | now (v : Dword)
  | hotp
  | verify
  deriving DecidableEq, Repr

/-- A character R106 gives a code: a printable ASCII character. -/
def printable (c : Char) : Bool := 0x20 ≤ c.toNat && c.toNat ≤ 0x7E

/-- A text stands for bytes only where every character is printable ASCII (30_encoding.md R106). -/
def HostLine.wf (l : HostLine) : Bool :=
  match l with
  | .key text => text.all printable
  | .token text => text.all printable
  | .wr _ _ | .rd _ | .cmd _ | .wait | .keyb _ | .ctr _ | .now _ | .hotp | .verify => true

/-- The ASCII codes of a text (30_encoding.md R106). -/
def asciiBytes (text : List Char) : Bytes := text.map fun c => BitVec.ofNat 8 c.toNat

/-- `wr REG, v` (30_encoding.md R105). -/
def writeEvent (r : Reg) (v : Word) : Event := .write r.word v

/-- One push for each byte, in order, each zero-extended (30_encoding.md R106). -/
def pushEvents (r : Reg) (bytes : Bytes) : List Event := bytes.map fun b => writeEvent r (b.setWidth 32)

/-- The port transactions of a line (30_encoding.md R105, R106). -/
def HostLine.events (l : HostLine) : List Event :=
  match l with
  | .wr r v => [writeEvent r v]
  | .rd r => [.read r.word]
  | .cmd i => [writeEvent .cmd (encode i)]
  | .wait => [.wait]
  | .key text => pushEvents .keyPush (asciiBytes text)
  | .keyb bytes => pushEvents .keyPush bytes
  | .token text => pushEvents .tokenPush (asciiBytes text)
  | .ctr v => [writeEvent .counterLo (loHalf v), writeEvent .counterHi (hiHalf v)]
  | .now v => [writeEvent .nowLo (loHalf v), writeEvent .nowHi (hiHalf v)]
  | .hotp => [writeEvent .cmd (encode .hotp), .wait]
  | .verify => [writeEvent .cmd (encode .verify), .wait]

/-- The encoding of a host program: its transactions, in order (30_encoding.md R105). -/
def programEvents (p : List HostLine) : List Event := p.flatMap HostLine.events

/-- `hotp(secretKey, counter, codeLength)`; an absent counter or the default length leaves its line out (30_encoding.md R107). -/
def hotpCall (secretKey : Bytes) (counter : Option Dword) (codeLength : Option Word) : List HostLine :=
  [.keyb secretKey] ++ (counter.map HostLine.ctr).toList ++ (codeLength.map (HostLine.wr .codeLen)).toList ++ [.hotp]

/-- `verify(secretKey, userToken, step, allow, now)`, the defaults left out (30_encoding.md R107). -/
def verifyCall (secretKey userToken : Bytes) (step allow : Option Word) (now : Option Dword) : List HostLine :=
  [.keyb secretKey] ++ (userToken.map fun b => HostLine.wr .tokenPush (b.setWidth 32))
    ++ (step.map (HostLine.wr .step)).toList ++ (allow.map (HostLine.wr .allow)).toList
    ++ (now.map HostLine.now).toList ++ [.verify]

/-- The result of a `hotp` call in the state its command left: the code, or the error of `ERR` (30_encoding.md R107). -/
def hotpResult (s : State) : Except Word Bytes := if s.status.err then .error s.err else .ok s.res.code

/-- The result of a `verify` call: `STATUS.MATCH`, or the error of `ERR` (30_encoding.md R107). -/
def verifyResult (s : State) : Except Word Bool := if s.status.err then .error s.err else .ok s.res.matched

end Sys2Proof.Machine
end

