-- ==== Sys2Proof/Machine/Work.lean ====
section
/-! DEFINITION. Machine/Work.lean: the work counts of 41_hmac_sha1.md R139 and 70_reset_and_hazards.md R250, in calls of
`compress`. "This is timing: no rule of the model depends on it": no step reads these. -/

namespace Sys2Proof.Machine

open Sys2Proof

/-- The calls of `compress` that `SHA1` makes for a message (41_hmac_sha1.md R134). -/
def sha1Calls (m : Bytes) : Nat := (shaPad m).length / 64

/-- The calls of `compress` that `HMAC_SHA1(K, m)` makes (41_hmac_sha1.md R138). -/
def hmacCalls (k m : Bytes) : Nat :=
  (if k.length > 64 then sha1Calls k else 0) + sha1Calls (hmacKeyBlock k ++ m) + sha1Calls (hmacKeyBlock k ++ (sha1 m).toList)

/-- `h` of 70_reset_and_hazards.md R250. -/
def hmacWork (keyLen : Nat) : Nat := if keyLen ≤ 64 then 4 else 4 + (keyLen + 9 + 63) / 64

/-- `m` of 70_reset_and_hazards.md R250: the iterations that computed a code (log entry 15). -/
def ScanEnd.iterations (e : ScanEnd) : Nat :=
  match e with
  | .found _ k => k + 1
  | .exhausted _ k => k + 1
  | .zeroCounter k => k

/-- The calls of `compress` of a command whose checks pass (70_reset_and_hazards.md R250). -/
def commandWork (i : Instr) (s : State) : Nat :=
  match i with
  | .encode => 0
  | .hmac => hmacWork s.ops.key.length
  | .hotp => hmacWork s.ops.key.length
  | .verify => hmacWork s.ops.key.length * (verifyScan (usedTime s) s).iterations
  | .clear => 0

end Sys2Proof.Machine
end

