-- ==== Sys2Proof/Safety.lean ====
section
/-! DEFINITION. Safety.lean: the terms the statements use: what holds of every reachable state, what a completed command
leaves behind, which parts two states share. -/

namespace Sys2Proof.Machine

open Sys2Proof

/-- One of the codes 0x30 to 0x39 (00_scope.md R10). -/
def isDigit (b : Byte) : Bool := 0x30 ≤ b.toNat && b.toNat ≤ 0x39

/-- The shape of `ERR` (10_state.md R42, R43): codes 4 to 15 are never produced, the information bits belong to the code, and
no other bit is set. -/
structure ErrShape (e : Word) : Prop where
  codes : (errCode e).toNat ≤ 3
  none : errCode e = 0 → e = 0
  missing : errCode e = 1 → errMissBits e ≠ 0 ∧ errBadBits e = 0
  invalid : errCode e = 2 → errBadBits e ≠ 0 ∧ errMissBits e = 0
  illegal : errCode e = 3 → e = 3
  defined : e &&& ~~~Reg.err.bits = 0

/-- What holds after reset and is kept by every step. -/
structure State.Inv (s : State) : Prop where
  /-- The build parameters are in the ranges of 00_scope.md R8. -/
  params : s.params.wf = true
  /-- `KEY_LEN ≤ KEY_MAX` (30_encoding.md R99). -/
  keyFits : s.ops.key.length ≤ s.params.keyMax
  /-- `KEY_OVF` is set only at a full buffer (30_encoding.md R99). -/
  keyOvfFull : s.ops.keyOvf = true → s.ops.key.length = s.params.keyMax
  /-- `TOKEN_LEN ≤ CODE_MAX` (30_encoding.md R100). -/
  tokenFits : s.ops.token.length ≤ s.params.codeMax
  /-- `TOK_OVF` is set only at a full buffer (30_encoding.md R100). -/
  tokOvfFull : s.ops.tokOvf = true → s.ops.token.length = s.params.codeMax
  /-- An absent counter holds its default (30_encoding.md R95). -/
  counterAbsent : s.ops.cntValid = false → s.ops.counter = 0
  /-- An absent time holds its default (30_encoding.md R98). -/
  nowAbsent : s.ops.nowValid = false → s.ops.now = 0
  /-- `CODE_OUT_LEN ≤ CODE_MAX` (10_state.md R33). -/
  codeFits : s.res.code.length ≤ s.params.codeMax
  /-- `CODE` holds decimal digits (10_state.md R33). -/
  codeDigits : ∀ b ∈ s.res.code, isDigit b = true
  /-- `CODEVAL` is `TRUNC mod 1000000` (42_hotp.md R163). -/
  codeValReduced : s.res.codeVal.toNat = s.res.trunc.toNat % 1000000
  /-- `CODE` is empty or renders `CODEVAL` (42_hotp.md R164). -/
  codeRendered : s.res.code = [] ∨ ∃ n, s.res.code = render s.res.codeVal.toNat n
  /-- While a command runs, step 2 of 30_encoding.md R92 stands. -/
  busyCleared : s.status.busy = true →
    s.status.done = false ∧ s.status.err = false ∧ s.err = 0 ∧ s.res.matched = false ∧ s.res.wrap = false
  /-- An idle block has no command to complete. -/
  idleSettled : s.status.busy = false → s.busyLeft = 0
  /-- `DONE = 0` in an idle block means no command was accepted since reset (10_state.md R41, R55). -/
  freshAfterReset : s.status.busy = false → s.status.done = false →
    s.res = ResultBank.cleared ∧ s.err = 0 ∧ s.lastCmd = 0 ∧ s.status.err = false
  /-- "`ERR = 1` exactly when `ERR.CODE ≠ 0`" (10_state.md R41). -/
  errFlag : s.status.err = true ↔ errCode s.err ≠ 0
  /-- 10_state.md R43. -/
  errShape : ErrShape s.err
  /-- "`MATCH = 1` implies the command was `VERIFY` and `ERR = 0`" (10_state.md R41). -/
  matchMeansVerify : s.res.matched = true → s.lastCmd = encode .verify ∧ s.status.err = false
  /-- After an error the failed command's write set reads as after reset (10_state.md R32). -/
  failedClean : s.status.err = true → ∀ i, decode s.lastCmd = .ok i → s.res.clearSet (writeSet i) = s.res

/-- Two result banks agree on a member. -/
def ResultBank.sameAt (m : ResMember) (a b : ResultBank) : Prop :=
  match m with
  | .enc => a.enc = b.enc
  | .digest => a.digest = b.digest
  | .offset => a.offset = b.offset
  | .trunc => a.trunc = b.trunc
  | .codeVal => a.codeVal = b.codeVal
  | .code => a.code = b.code
  | .tstep => a.tstep = b.tstep
  | .nowl => a.nowl = b.nowl
  | .matched => a.matched = b.matched
  | .wrap => a.wrap = b.wrap

/-- Every result member outside `ms` is the same in both banks (10_state.md R31). -/
def KeptOutside (ms : List ResMember) (a b : ResultBank) : Prop := ∀ m, m ∉ ms → ResultBank.sameAt m a b

/-- Every result member of `ms` is at its reset value (10_state.md R32). -/
def ClearedOn (ms : List ResMember) (r : ResultBank) : Prop := ∀ m ∈ ms, ResultBank.sameAt m r ResultBank.cleared

/-- What every completed command with the word `w` leaves, from `s` to `t`: the operands discarded (10_state.md R24), the
sequencer idle and `DONE` set, `LAST_CMD = w`; and what no command touches (the build parameters, the events to come, the
replies given, the free values drawn but for `now_i`). -/
structure Completed (w : Word) (s t : State) : Prop where
  discarded : t.ops = OperandBank.default
  idle : t.status.busy = false
  done : t.status.done = true
  settled : t.busyLeft = 0
  lastCmd : t.lastCmd = w
  params : t.params = s.params
  port : t.port = s.port
  replies : t.replies = s.replies
  slots : t.free.slots = s.free.slots
  reads : t.free.reads = s.free.reads

/-- The command completed without an error. -/
structure Succeeded (w : Word) (s t : State) : Prop where
  completed : Completed w s t
  errFlag : t.status.err = false
  errWord : t.err = 0

/-- The command completed with `ERR = e`, its write set `ws` at reset values, `MATCH` and `WRAP` 0 and every other
result kept (60_exceptions.md R214). -/
structure Failed (w : Word) (ws : List ResMember) (e : Word) (s t : State) : Prop where
  completed : Completed w s t
  errFlag : t.status.err = true
  errWord : t.err = e
  clean : ClearedOn (ws ++ [.matched, .wrap]) t.res
  kept : KeptOutside (ws ++ [.matched, .wrap]) s.res t.res

/-- The operands `VERIFY` reads pass its checks (43_totp_verify.md R186). -/
structure VerifyReady (s : State) : Prop where
  key : s.ops.key ≠ []
  token : s.ops.token ≠ []
  keyOvf : s.ops.keyOvf = false
  tokOvf : s.ops.tokOvf = false
  step : s.ops.step ≠ 0

/-- The operands `HOTP` reads pass its checks (42_hotp.md R167). -/
structure HotpReady (s : State) : Prop where
  key : s.ops.key ≠ []
  counter : s.ops.cntValid = true
  quirk : s.params.zeroCounterMissing = true → s.ops.counter ≠ 0
  keyOvf : s.ops.keyOvf = false
  codeLen : s.ops.codeLen.toNat ≤ s.params.codeMax

/-- The operands `HMAC` reads pass its checks (41_hmac_sha1.md R141). -/
structure HmacReady (s : State) : Prop where
  key : s.ops.key ≠ []
  keyOvf : s.ops.keyOvf = false

/-- Two states that differ at most in the bytes of the key and of the token, not in their number (10_state.md R28). -/
structure SecretsApart (s s' : State) : Prop where
  keyLen : s.ops.key.length = s'.ops.key.length
  tokenLen : s.ops.token.length = s'.ops.token.length
  same : { s with ops := { s.ops with key := [], token := [] } } = { s' with ops := { s'.ops with key := [], token := [] } }

/-- The parts of two states that belong to the block, with the samples of `now_i` drawn (70_reset_and_hazards.md R246): not the
events to come, the replies given and the other free values drawn. -/
structure SameBlock (s t : State) : Prop where
  params : s.params = t.params
  ops : s.ops = t.ops
  res : s.res = t.res
  status : s.status = t.status
  err : s.err = t.err
  lastCmd : s.lastCmd = t.lastCmd
  busyLeft : s.busyLeft = t.busyLeft
  time : s.free.time = t.free.time

end Sys2Proof.Machine
end

