-- ==== Sys2Proof/Certificates/Slice0/Obligations.lean ====
section
/-! DEFINITION. Certificates/Slice0/Obligations.lean: the statements for the provers. Each docstring names the rule it
formalises, or says what it is derived from. Nearly every rule of this spec rests on a decision the spec itself took
(92_eei_decisions.md); a docstring names the decision where it is not obvious from the rule. -/

open Sys2Proof Sys2Proof.Machine

/-! ## The command word -/

/-- Written out from 30_encoding.md R93 and R94, bit for bit: `RSV` 31:8, then `OPC` 7:0 (derived: a few words of many). -/
def Obligations.SpecWordsDecodeToTheirCommands : Prop :=
  decode (0x000000#24 ++ 0b00000001#8) = .ok .encode ∧
  decode (0x000000#24 ++ 0b00000010#8) = .ok .hmac ∧
  decode (0x000000#24 ++ 0b00000011#8) = .ok .hotp ∧
  decode (0x000000#24 ++ 0b00000100#8) = .ok .verify ∧
  decode (0x000000#24 ++ 0b00000101#8) = .ok .clear ∧
  decode 0x00000000 = .error .reservedOpcode ∧
  decode 0x00000006 = .error .reservedOpcode ∧
  decode 0x00000103 = .error .reservedField ∧
  decode 0xFFFFFFFF = .error .reservedField

/-- 30_encoding.md R93: "A command word is legal exactly when it equals one of the five words below", over all 2^32 words, with
the word of each command. -/
def Obligations.OnlyTheFiveWordsAreLegal : Prop :=
  (encode .encode = 0x00000001 ∧ encode .hmac = 0x00000002 ∧ encode .hotp = 0x00000003 ∧ encode .verify = 0x00000004 ∧
    encode .clear = 0x00000005) ∧
  ∀ w : Word,
    (∀ i, decode w = .ok i ↔ w = encode i) ∧
    (Word.isLegalCommand w = true ↔ w ∈ [0x00000001#32, 0x00000002#32, 0x00000003#32, 0x00000004#32, 0x00000005#32])

/-- The row reader agrees with the decoder: a row's number is read as its command and as nothing else (derived: 30_encoding.md
section 2). That a number of 2^32 or more is read modulo 2^32 is the model's own choice (log entry 7). -/
def Obligations.TableWordsReadAsTheirRows : Prop :=
  ∀ (w : Nat) (i : Instr), decodeTableWord 32 w = some i ↔ w % 2 ^ 32 = (encode i).toNat

/-! ## Reset and the machine as a whole -/

/-- 70_reset_and_hazards.md R240 with 10_state.md R55: every register of the block after reset, that reset in any state, whatever
it was doing, brings the block there, the complete list of registers that read non-zero after it, and that a completed `CLEAR`
leaves the same state "except for `STATUS.DONE` and `LAST_CMD`". (A running command with no port slot left completes first, and the
reset then meets the idle block: log entry 4. What of the model's own fields a reset keeps: log entries 1 and 2. Derived,
since these clauses and that premise are the model's choice.) -/
def Obligations.ResetPutsEveryRegisterAtItsResetValue : Prop :=
  (State.reset.ops.counter = 0 ∧ State.reset.ops.cntValid = false ∧ State.reset.ops.codeLen = 6 ∧ State.reset.ops.step = 30 ∧
    State.reset.ops.allow = 0 ∧ State.reset.ops.now = 0 ∧ State.reset.ops.nowValid = false ∧ State.reset.ops.key = [] ∧
    State.reset.ops.keyOvf = false ∧ State.reset.ops.token = [] ∧ State.reset.ops.tokOvf = false ∧
    State.reset.res.enc.toList = List.replicate 8 0 ∧ State.reset.res.digest.toList = List.replicate 20 0 ∧
    State.reset.res.offset = 0 ∧ State.reset.res.trunc = 0 ∧ State.reset.res.codeVal = 0 ∧ State.reset.res.code = [] ∧
    State.reset.res.tstep = 0 ∧ State.reset.res.nowl = 0 ∧ State.reset.res.matched = false ∧ State.reset.res.wrap = false ∧
    statusWord State.reset = 0 ∧ State.reset.err = 0 ∧ State.reset.lastCmd = 0 ∧ State.reset.busyLeft = 0) ∧
  (∀ s : State, ∃ t, exec .clear s = .next t ∧ t.ops = State.reset.ops ∧ t.res = State.reset.res ∧ t.err = State.reset.err ∧
    t.status = { State.reset.status with done := true } ∧ t.lastCmd = 0x00000005 ∧ t.busyLeft = State.reset.busyLeft) ∧
  (∀ (s : State) (rest : List Event), s.port = .reset :: rest → (s.status.busy = true → s.busyLeft ≠ 0) →
    ∃ t, step s = .next t ∧ t.ops = State.reset.ops ∧ t.res = State.reset.res ∧ t.status = State.reset.status ∧ t.err = 0 ∧
      t.lastCmd = 0 ∧ t.busyLeft = 0 ∧ t.params = s.params ∧ t.port = rest ∧ t.replies = s.replies ∧ t.free = s.free ∧
      ∀ w : BitVec 7, portRead w t = if w = Reg.codeLen.word then 6 else if w = Reg.step.word then 30 else 0)

/-- Reset meets the invariant (derived: 10_state.md sections 2 to 4 and 7). -/
def Obligations.ResetMeetsTheInvariant : Prop := State.reset.Inv

/-- Every step keeps the invariant, from every state that meets it (derived: 10_state.md R33, R41, R43, R32; 42_hotp.md R163,
R164; 30_encoding.md R99, R100). -/
def Obligations.EveryStepKeepsTheInvariant : Prop :=
  ∀ s t : State, s.Inv → step s = .next t → t.Inv

/-- The sequencer's step runs the command it was given: `exec` of the decoded command, or `IllegalCommand`; and so does the
step on a placed word (log entries 1, 4 and 7 say how the model lays out a command's start and its completion). -/
def Obligations.StepRunsTheDecodedCommand : Prop :=
  (∀ (s : State) (i : Instr), s.status.busy = true → s.busyLeft = 0 → decode s.lastCmd = .ok i → step s = exec i s) ∧
  (∀ (s : State) (r : DecodeReject), s.status.busy = true → s.busyLeft = 0 → decode s.lastCmd = .error r →
    step s = .next (illegalCommand s.lastCmd s)) ∧
  (∀ (s : State) (i : Instr),
    step (s.withFetchWord 32 (encode i).toNat) = exec i (s.withFetchWord 32 (encode i).toNat))

/-- No step of the block faults or is refused (derived: 43_totp_verify.md R190, 60_exceptions.md R217, 20_memory.md R65). -/
def Obligations.EveryStepAnswersANextState : Prop := ∀ s : State, ∃ t, step s = .next t

/-- From any busy state, with no reset coming, the block is idle and `DONE` after exactly the port slots left and one step of
completion (derived: 70_reset_and_hazards.md R245, 43_totp_verify.md R190; the slots and the completion step are the model's
choice, log entry 4). -/
def Obligations.ABusyBlockCompletes : Prop :=
  ∀ s : State, s.status.busy = true → Event.reset ∉ s.port →
    ∃ t, Host.Core.run Sys2Proof.core (s.busyLeft + 1) s = .next t ∧ t.status.busy = false ∧ t.status.done = true ∧
      t.lastCmd = s.lastCmd

/-- 70_reset_and_hazards.md R246: whatever the host does while the command runs, the block ends as if the whole command had
been one step at the accepted write (derived; the busy slots are the model's, log entry 4). -/
def Obligations.ACommandIsOneTransition : Prop :=
  ∀ (s : State) (w : Word) (rest : List Event), s.status.busy = false → s.port = .write Reg.cmd.word w :: rest →
    Event.reset ∉ rest →
    ∃ t u, Host.Core.run Sys2Proof.core (Config.busySlots s.free.slots + 2) s = .next t ∧ runCommand w s = .next u ∧
      SameBlock t u ∧ t.port <:+ rest

/-! ## The commands -/

/-- 40_counter_codec.md R121, all of it: operands, write set, body, flags, no error, and that a second `ENCODE` with nothing
written in between encodes 0. -/
def Obligations.EncodeEncodesTheCounter : Prop :=
  ∀ s : State, ∃ t u, exec .encode s = .next t ∧ Succeeded 0x00000001 s t ∧ statusWord t = 0x00000002 ∧
    t.res.enc = be64 s.ops.counter ∧ readReg .encHi t = s.ops.counter.extractLsb' 32 32 ∧
    readReg .encLo t = s.ops.counter.extractLsb' 0 32 ∧
    t.res.matched = false ∧ t.res.wrap = false ∧ KeptOutside [.enc, .matched, .wrap] s.res t.res ∧
    t.free.time = s.free.time ∧
    exec .encode t = .next u ∧ u.res.enc = Vector.replicate 8 0

/-- 41_hmac_sha1.md R141, all of it: the digest of `ENC` under the key, `ENC` and every other result kept; its two errors, a
missing key before an overflowed one, with `DIGEST` at 0. -/
def Obligations.HmacComputesTheDigestOrReportsTheKey : Prop :=
  ∀ s : State,
    (HmacReady s → ∃ t, exec .hmac s = .next t ∧ Succeeded 0x00000002 s t ∧ statusWord t = 0x00000002 ∧
      t.res.digest = hmacSha1 s.ops.key s.res.enc.toList ∧ t.res.enc = s.res.enc ∧
      t.res.matched = false ∧ t.res.wrap = false ∧ KeptOutside [.digest, .matched, .wrap] s.res t.res ∧
      t.free.time = s.free.time) ∧
    (s.ops.key = [] → ∃ t, exec .hmac s = .next t ∧ Failed 0x00000002 [.digest] 0x00000101 s t ∧
      statusWord t = 0x00000006 ∧ t.free.time = s.free.time) ∧
    (s.ops.key ≠ [] → s.ops.keyOvf = true → ∃ t, exec .hmac s = .next t ∧ Failed 0x00000002 [.digest] 0x00010002 s t ∧
      statusWord t = 0x00000006 ∧ t.free.time = s.free.time)

/-- 42_hotp.md R166 and R167, all of both. When the checks pass: the six steps of R160 in the result bank, every other result kept,
`CODE[j]` 0 past the code. The four checks and their order: everything missing in one error, and only when nothing is missing
everything invalid in one error, with the write set of `HOTP` at 0. -/
def Obligations.HotpComputesTheCodeOrReportsItsOperands : Prop :=
  ∀ s : State,
    (HotpReady s → ∃ t, exec .hotp s = .next t ∧ Succeeded 0x00000003 s t ∧ statusWord t = 0x00000002 ∧
      t.res.enc = be64 s.ops.counter ∧
      t.res.digest = hmacSha1 s.ops.key (be64 s.ops.counter).toList ∧
      t.res.offset = dtOffset t.res.digest ∧ t.res.trunc = dtTruncated t.res.digest ∧
      t.res.codeVal.toNat = t.res.trunc.toNat % 1000000 ∧
      t.res.code = render t.res.codeVal.toNat s.ops.codeLen.toNat ∧
      (∀ j : Fin 64, t.res.code.length ≤ j.val → readReg (.code j) t = 0) ∧
      t.res.matched = false ∧ t.res.wrap = false ∧ t.res.tstep = s.res.tstep ∧ t.res.nowl = s.res.nowl ∧
      t.free.time = s.free.time) ∧
    ((s.ops.key = [] ∨ s.ops.cntValid = false ∨ (s.params.zeroCounterMissing = true ∧ s.ops.counter = 0)) →
      ∃ t, exec .hotp s = .next t ∧ statusWord t = 0x00000006 ∧ t.free.time = s.free.time ∧
        Failed 0x00000003 hotpSet
          (0x00000001 ||| (if s.ops.key = [] then 0x00000100 else 0) |||
            (if s.ops.cntValid = false ∨ (s.params.zeroCounterMissing = true ∧ s.ops.counter = 0) then 0x00000200 else 0)) s t) ∧
    (s.ops.key ≠ [] → s.ops.cntValid = true → (s.params.zeroCounterMissing = true → s.ops.counter ≠ 0) →
      (s.ops.keyOvf = true ∨ s.params.codeMax < s.ops.codeLen.toNat) →
      ∃ t, exec .hotp s = .next t ∧ statusWord t = 0x00000006 ∧ t.free.time = s.free.time ∧
        Failed 0x00000003 hotpSet
          (0x00000002 ||| (if s.ops.keyOvf = true then 0x00010000 else 0) |||
            (if s.params.codeMax < s.ops.codeLen.toNat then 0x00080000 else 0)) s t)

/-- 42_hotp.md R168: with `ZERO_COUNTER_MISSING` false, its default, a written counter 0 gives its code; with it true, `HOTP` with
`COUNTER = 0` raises `MissingParameter(MISS_COUNTER)` "whether or not it was written". -/
def Obligations.CounterZeroIsAcceptedUnlessTheQuirkIsBuiltIn : Prop :=
  Params.standard.zeroCounterMissing = false ∧
  ∀ s : State, s.ops.key ≠ [] → s.ops.counter = 0 →
    (s.params.zeroCounterMissing = false → s.ops.cntValid = true → s.ops.keyOvf = false →
      s.ops.codeLen.toNat ≤ s.params.codeMax →
      ∃ t, exec .hotp s = .next t ∧ Succeeded 0x00000003 s t ∧ t.res.enc = Vector.replicate 8 0 ∧
        t.res.code = (hotpFn s.ops.key 0 s.ops.codeLen.toNat).code) ∧
    (s.params.zeroCounterMissing = true → ∃ t, exec .hotp s = .next t ∧ Failed 0x00000003 hotpSet 0x00000201 s t)

/-- 43_totp_verify.md R185 with R184 and R189 (derived: the count of samples is the model's choice, log entry 3). The checks of R186 passing, the scan ends in one of three ways. At the
lowest window index whose code equals the token, `MATCH` is set and the result bank holds the values of that counter. When the
whole window matches nothing, `MATCH` is 0 and the bank holds those of `T +_64 ALLOW`. Under the quirk, the counter 0 reached
first ends it with the error. A failed check ends it before anything is computed and before the time is sampled. The time is
`NOW` or the sample of `now_i`, whatever it is. -/
def Obligations.VerifyScansTheWindowInOrder : Prop :=
  ∀ s : State,
    let t₀ := tstepFn (usedTime s) s.ops.step
    let wraps := t₀.toNat < s.ops.allow.toNat ∨ 2 ^ 64 - 1 < t₀.toNat + s.ops.allow.toNat
    let out := fun j => hotpFn s.ops.key (window t₀ s.ops.allow j) s.ops.token.length
    let last := hotpFn s.ops.key (t₀ + s.ops.allow.setWidth 64) s.ops.token.length
    let sampled := if s.ops.nowValid = true then s.free.time else s.free.time + 1
    (VerifyReady s → ∀ k ≤ 2 * s.ops.allow.toNat, (out k).code = s.ops.token → (∀ j < k, (out j).code ≠ s.ops.token) →
      (s.params.zeroCounterMissing = true → ∀ j ≤ k, window t₀ s.ops.allow j ≠ 0) →
      ∃ t, exec .verify s = .next t ∧ Succeeded 0x00000004 s t ∧
        t.res.matched = true ∧ t.res.nowl = usedTime s ∧ t.res.tstep = t₀ ∧ (t.res.wrap = true ↔ wraps) ∧
        t.res.enc = be64 (window t₀ s.ops.allow k) ∧ t.res.digest = (out k).digest ∧ t.res.offset = (out k).offset ∧
        t.res.trunc = (out k).trunc ∧ t.res.codeVal = (out k).codeVal ∧ t.res.code = s.ops.token ∧ t.free.time = sampled) ∧
    (VerifyReady s → (∀ j ≤ 2 * s.ops.allow.toNat, (out j).code ≠ s.ops.token) →
      (s.params.zeroCounterMissing = true → ∀ j ≤ 2 * s.ops.allow.toNat, window t₀ s.ops.allow j ≠ 0) →
      ∃ t, exec .verify s = .next t ∧ Succeeded 0x00000004 s t ∧
        t.res.matched = false ∧ t.res.nowl = usedTime s ∧ t.res.tstep = t₀ ∧ (t.res.wrap = true ↔ wraps) ∧
        t.res.enc = be64 (t₀ + s.ops.allow.setWidth 64) ∧ t.res.digest = last.digest ∧ t.res.offset = last.offset ∧
        t.res.trunc = last.trunc ∧ t.res.codeVal = last.codeVal ∧ t.res.code = last.code ∧ t.free.time = sampled) ∧
    (VerifyReady s → s.params.zeroCounterMissing = true → ∀ k ≤ 2 * s.ops.allow.toNat, window t₀ s.ops.allow k = 0 →
      (∀ j < k, window t₀ s.ops.allow j ≠ 0 ∧ (out j).code ≠ s.ops.token) →
      ∃ t, exec .verify s = .next t ∧ Failed 0x00000004 (writeSet .verify) 0x00000201 s t ∧ t.res = ResultBank.cleared ∧
        t.free.time = sampled) ∧
    (¬ VerifyReady s → ∃ t e, exec .verify s = .next t ∧ Failed 0x00000004 (writeSet .verify) e s t ∧
      t.res = ResultBank.cleared ∧ t.free.time = s.free.time)

/-- 43_totp_verify.md R188: under `ZERO_COUNTER_MISSING`, a scan that reaches counter 0 before it has matched ends with
`MissingParameter(MISS_COUNTER)` and `MATCH` 0; that needs `T ≤ ALLOW` or a window that wraps; with the parameter false it never
happens. -/
def Obligations.VerifyUnderTheQuirkStopsAtCounterZero : Prop :=
  ∀ s : State, VerifyReady s →
    let t₀ := tstepFn (usedTime s) s.ops.step
    (s.params.zeroCounterMissing = true → ∀ k ≤ 2 * s.ops.allow.toNat, window t₀ s.ops.allow k = 0 →
      (∀ j < k, window t₀ s.ops.allow j ≠ 0 ∧
        (hotpFn s.ops.key (window t₀ s.ops.allow j) s.ops.token.length).code ≠ s.ops.token) →
      ∃ t, exec .verify s = .next t ∧ Failed 0x00000004 (writeSet .verify) 0x00000201 s t ∧ t.res = ResultBank.cleared) ∧
    (∀ k ≤ 2 * s.ops.allow.toNat, window t₀ s.ops.allow k = 0 →
      t₀.toNat ≤ s.ops.allow.toNat ∨ windowWraps t₀ s.ops.allow = true) ∧
    (s.params.zeroCounterMissing = false → ∃ t, exec .verify s = .next t ∧ Succeeded 0x00000004 s t)

/-- 43_totp_verify.md R186, all five checks and their order; the whole result bank reads 0 and no time is sampled. -/
def Obligations.VerifyChecksItsOperandsInOrder : Prop :=
  ∀ s : State,
    ((s.ops.key = [] ∨ s.ops.token = []) →
      ∃ t, exec .verify s = .next t ∧ t.res = ResultBank.cleared ∧ t.free.time = s.free.time ∧ statusWord t = 0x00000006 ∧
        Failed 0x00000004 (writeSet .verify)
          (0x00000001 ||| (if s.ops.key = [] then 0x00000100 else 0) ||| (if s.ops.token = [] then 0x00000400 else 0)) s t) ∧
    (s.ops.key ≠ [] → s.ops.token ≠ [] → (s.ops.keyOvf = true ∨ s.ops.tokOvf = true ∨ s.ops.step = 0) →
      ∃ t, exec .verify s = .next t ∧ t.res = ResultBank.cleared ∧ t.free.time = s.free.time ∧ statusWord t = 0x00000006 ∧
        Failed 0x00000004 (writeSet .verify)
          (0x00000002 ||| (if s.ops.keyOvf = true then 0x00010000 else 0) |||
            (if s.ops.tokOvf = true then 0x00020000 else 0) ||| (if s.ops.step = 0 then 0x00040000 else 0)) s t)

/-- 43_totp_verify.md R194, its first sentence: with `ALLOW = 0` and the quirk off, `MATCH` says exactly whether the token is
`hotp(secretKey, floor(now / step))` (derived). -/
def Obligations.VerifyWithNoAllowanceComparesWithTheCurrentCode : Prop :=
  ∀ s : State, VerifyReady s → s.ops.allow = 0 → s.params.zeroCounterMissing = false →
    ∃ t, exec .verify s = .next t ∧ Succeeded 0x00000004 s t ∧ t.res.wrap = false ∧
      (t.res.matched = true ↔
        s.ops.token = (hotpFn s.ops.key (BitVec.ofNat 64 ((usedTime s).toNat / s.ops.step.toNat)) s.ops.token.length).code)

/-- 44_control.md R200: after `CLEAR` the block is as after reset "except for `STATUS.DONE` and `LAST_CMD`", and a
`CLEAR` written to a busy block is not accepted and aborts nothing (derived: that
it takes a slot is the model's choice, log entry 4). -/
def Obligations.ClearReturnsTheBlockToReset : Prop :=
  (∀ s : State, ∃ t, exec .clear s = .next t ∧ Succeeded 0x00000005 s t ∧ statusWord t = 0x00000002 ∧
    t.ops = State.reset.ops ∧ t.res = State.reset.res ∧ t.err = State.reset.err ∧ t.free.time = s.free.time) ∧
  (∀ (s : State) (n : Nat) (rest : List Event), s.status.busy = true → s.busyLeft = n + 1 →
    s.port = .write Reg.cmd.word 0x00000005 :: rest → step s = .next { s with port := rest, busyLeft := n })

/-- 44_control.md R202 with 30_encoding.md R94 and 60_exceptions.md R216: any other word raises `IllegalCommand`, computes nothing
and still discards the operands; `LAST_CMD` records it. -/
def Obligations.AReservedWordIsReportedAndComputesNothing : Prop :=
  ∀ (s : State) (w : Word),
    w ≠ 0x00000001 → w ≠ 0x00000002 → w ≠ 0x00000003 → w ≠ 0x00000004 → w ≠ 0x00000005 →
    ∃ t, runCommand w s = .next t ∧ Failed w [] 0x00000003 s t ∧ statusWord t = 0x00000006 ∧ t.free.time = s.free.time

/-! ## What holds of every command -/

/-- 10_state.md R24: "When any accepted command completes, with or without an error, every member of the operand bank returns to
its default value", here for every command word. -/
def Obligations.EveryCommandDiscardsTheOperands : Prop :=
  ∀ (w : Word) (s t : State), runCommand w s = .next t →
    t.ops = { counter := 0, cntValid := false, codeLen := 6, step := 30, allow := 0, now := 0, nowValid := false,
              key := [], keyOvf := false, token := [], tokOvf := false }

/-- 10_state.md R31, all of it: each command writes only its own write set; every accepted word clears `MATCH` and `WRAP`, which
only `VERIFY` sets again; a reserved word writes no result. -/
def Obligations.EveryCommandKeepsTheResultsOutsideItsWriteSet : Prop :=
  (∀ (i : Instr) (s t : State), exec i s = .next t →
    KeptOutside ((match i with
      | .encode => [.enc]
      | .hmac => [.digest]
      | .hotp => [.enc, .digest, .offset, .trunc, .codeVal, .code]
      | .verify => [.enc, .digest, .offset, .trunc, .codeVal, .code, .tstep, .nowl]
      | .clear => [.enc, .digest, .offset, .trunc, .codeVal, .code, .tstep, .nowl]) ++ [.matched, .wrap]) s.res t.res ∧
    (i ≠ .verify → t.res.matched = false ∧ t.res.wrap = false)) ∧
  (∀ (w : Word) (r : DecodeReject) (s t : State), decode w = .error r → runCommand w s = .next t →
    t.res = { s.res with matched := false, wrap := false })

/-- 10_state.md R32: a command's write set is at its reset values when its body starts, and "after a command that ended in error
its whole write set reads as after reset". -/
def Obligations.AFailedCommandLeavesItsWriteSetClean : Prop :=
  ∀ (i : Instr) (s : State),
    ClearedOn (writeSet i) (startCommand i s).res ∧
    ∀ t, exec i s = .next t → t.status.err = true → ClearedOn (writeSet i) t.res

/-- 10_state.md R41, its closing sentences, with the shape of `ERR` of R43, after every completed command word (derived: R43 is
marked as derived and R41 is stated in part). -/
def Obligations.EveryCommandEndsWithAConsistentStatus : Prop :=
  ∀ (w : Word) (s t : State), runCommand w s = .next t →
    t.status.busy = false ∧ t.status.done = true ∧ (t.status.err = true ↔ errCode t.err ≠ 0) ∧
    (t.res.matched = true → w = 0x00000004 ∧ t.status.err = false) ∧ ErrShape t.err

/-- The frame of the five commands: the build parameters, the events to come, the replies given and the counts of the other
free values stay; a sample of `now_i` is drawn by `VERIFY` alone and only with `NOW_VALID = 0` (derived: 60_exceptions.md R226;
the counters are the model's, log entries 3 to 5). -/
def Obligations.CommandsTouchNothingOutsideTheBlock : Prop :=
  ∀ (i : Instr) (s t : State), exec i s = .next t →
    Completed (encode i) s t ∧
    (t.free.time = s.free.time ∨ (i = .verify ∧ s.ops.nowValid = false ∧ t.free.time = s.free.time + 1))

/-- 42_hotp.md R169, determinism: the results of `HOTP` are a function of `KEY`, `KEY_OVF`, `COUNTER`, `CNT_VALID`, `CODE_LEN`
and the build parameters alone (derived). -/
def Obligations.HotpDependsOnItsOperandsAlone : Prop :=
  ∀ s s' : State, s.params = s'.params → s.ops.key = s'.ops.key → s.ops.keyOvf = s'.ops.keyOvf →
    s.ops.counter = s'.ops.counter → s.ops.cntValid = s'.ops.cntValid → s.ops.codeLen = s'.ops.codeLen →
    ∃ t t', exec .hotp s = .next t ∧ exec .hotp s' = .next t' ∧
      KeptOutside [.tstep, .nowl] t.res t'.res ∧ t.err = t'.err ∧ statusWord t = statusWord t'

/-- 43_totp_verify.md R192: `VERIFY` is a function of its operands and the time it uses; no earlier result, counter or code
length plays a part. -/
def Obligations.VerifyDependsOnItsOperandsAlone : Prop :=
  ∀ s s' : State, s.params = s'.params → s.ops.key = s'.ops.key → s.ops.keyOvf = s'.ops.keyOvf →
    s.ops.token = s'.ops.token → s.ops.tokOvf = s'.ops.tokOvf → s.ops.step = s'.ops.step → s.ops.allow = s'.ops.allow →
    usedTime s = usedTime s' →
    ∃ t t', exec .verify s = .next t ∧ exec .verify s' = .next t' ∧
      t.res = t'.res ∧ t.err = t'.err ∧ statusWord t = statusWord t'

/-- 70_reset_and_hazards.md R247: after any completed command, the next `HMAC`, `HOTP` or `VERIFY` with nothing written finds
its operands missing (derived). -/
def Obligations.OperandsAreConsumedByEveryCommand : Prop :=
  ∀ (w : Word) (s t : State), runCommand w s = .next t →
    (∃ u, exec .hmac t = .next u ∧ u.err = 0x00000101) ∧
    (∃ u, exec .hotp t = .next u ∧ u.err = 0x00000301) ∧
    (∃ u, exec .verify t = .next u ∧ u.err = 0x00000501)

/-! ## The register port -/

/-- 20_memory.md R63, the table written out: every register at its offset with its access and its bits, the code bytes, the
reserved offsets; a WO register reads 0, a write to an RO register has no effect, the bits outside the column "bits" read 0 and
are ignored on a write. -/
def Obligations.TheAddressMapIsTheTable : Prop :=
  (∀ codeMax : Nat, ∀ row ∈ ([
      (0x000, .cmd, .wo, 0xFFFFFFFF), (0x004, .status, .ro, 0x00000F1F), (0x008, .err, .ro, 0x000F070F),
      (0x00C, .lastCmd, .ro, 0xFFFFFFFF), (0x010, .counterLo, .rw, 0xFFFFFFFF), (0x014, .counterHi, .rw, 0xFFFFFFFF),
      (0x018, .codeLen, .rw, 0xFFFFFFFF), (0x01C, .step, .rw, 0xFFFFFFFF), (0x020, .allow, .rw, 0xFFFFFFFF),
      (0x024, .nowLo, .rw, 0xFFFFFFFF), (0x028, .nowHi, .rw, 0xFFFFFFFF), (0x02C, .keyPush, .wo, 0x000000FF),
      (0x030, .keyLen, .ro, 0x0000FFFF), (0x034, .tokenPush, .wo, 0x000000FF), (0x038, .tokenLen, .ro, 0x000000FF)] : List (Nat × Reg × Access × Word)) ++ ([
      (0x040, .encHi, .ro, 0xFFFFFFFF), (0x044, .encLo, .ro, 0xFFFFFFFF), (0x048, .digest 0, .ro, 0xFFFFFFFF),
      (0x04C, .digest 1, .ro, 0xFFFFFFFF), (0x050, .digest 2, .ro, 0xFFFFFFFF), (0x054, .digest 3, .ro, 0xFFFFFFFF),
      (0x058, .digest 4, .ro, 0xFFFFFFFF), (0x05C, .offset, .ro, 0x0000000F), (0x060, .trunc, .ro, 0x7FFFFFFF),
      (0x064, .codeVal, .ro, 0x000FFFFF), (0x068, .codeOutLen, .ro, 0x000000FF), (0x06C, .tstepLo, .ro, 0xFFFFFFFF),
      (0x070, .tstepHi, .ro, 0xFFFFFFFF), (0x074, .nowlLo, .ro, 0xFFFFFFFF), (0x078, .nowlHi, .ro, 0xFFFFFFFF)] :
        List (Nat × Reg × Access × Word)),
    regAt codeMax (BitVec.ofNat 7 (row.1 / 4)) = some row.2.1 ∧ row.2.1.access = row.2.2.1 ∧ row.2.1.bits = row.2.2.2) ∧
  (∀ (codeMax : Nat) (j : Fin 64), regAt codeMax (BitVec.ofNat 7 ((0x100 + 4 * j.val) / 4)) =
      (if j.val < codeMax then some (.code j) else none) ∧
    Reg.access (.code j) = .ro ∧ Reg.bits (.code j) = 0x000000FF) ∧
  (∀ (codeMax : Nat) (w : BitVec 7), regAt codeMax w = none ↔
    4 * w.toNat = 0x03C ∨ (0x07C ≤ 4 * w.toNat ∧ 4 * w.toNat ≤ 0x0FC) ∨ 0x100 + 4 * codeMax ≤ 4 * w.toNat) ∧
  (∀ (w : BitVec 7) (v : Word) (s : State) (r : Reg), regAt s.params.codeMax w = some r →
    portRead w s = r.value s &&& r.bits ∧ portWrite w v s = portWrite w (v &&& r.bits) s ∧
    (r.access = .wo → portRead w s = 0) ∧ (r.access = .ro → portWrite w v s = s))

/-- 20_memory.md R65: reserved offsets and write-only registers read 0; writes to reserved offsets and read-only registers have
no effect. -/
def Obligations.ReservedAndOneWayRegisters : Prop :=
  ∀ (w : BitVec 7) (v : Word) (s : State),
    (regAt s.params.codeMax w = none → portRead w s = 0 ∧ portWrite w v s = s) ∧
    (∀ r, regAt s.params.codeMax w = some r → (r.access = .wo → portRead w s = 0) ∧ (r.access = .ro → portWrite w v s = s))

/-- 20_memory.md R66, its first sentence: a read of the idle block, at any address, changes nothing of the block (derived; the
reply is the model's record, log entry 1). -/
def Obligations.AReadHasNoSideEffect : Prop :=
  ∀ (s : State) (w : BitVec 7) (rest : List Event), s.status.busy = false → s.port = .read w :: rest →
    step s = .next { s with port := rest, replies := portRead w s :: s.replies }

/-- 30_encoding.md R91, with steps 1 and 2 of R92: a write of `CMD`, whatever the word, is accepted by the idle block, which is then
busy with everything cleared that every command clears, and nothing else changed (the busy time is a free value, log entry 4);
the busy block drops it, "not even `LAST_CMD`" changes (derived: the busy time, the count of commands and the slots are the
model's choice, log entry 4; what starts and clears is R92). -/
def Obligations.ACommandWriteIsAcceptedExactlyWhenIdle : Prop :=
  ∀ (s : State) (w : Word) (rest : List Event), s.port = .write Reg.cmd.word w :: rest →
    (s.status.busy = false → ∃ n, step s = .next { s with
      lastCmd := w
      status := { busy := true, done := false, err := false }
      res := { s.res with matched := false, wrap := false }
      err := 0
      busyLeft := n
      free := { s.free with slots := s.free.slots + 1 }
      port := rest }) ∧
    (∀ n, s.status.busy = true → s.busyLeft = n + 1 → step s = .next { s with port := rest, busyLeft := n })

/-- 70_reset_and_hazards.md R245, its third point: while `BUSY = 1` a write to any register, `CMD` included, "is dropped: it
changes no state and is not remembered" (derived: R245 is stated in part; the slot count is the model's, log entry 4). -/
def Obligations.ABusyBlockDropsWrites : Prop :=
  ∀ (s : State) (n : Nat) (w : BitVec 7) (v : Word) (rest : List Event), s.status.busy = true → s.busyLeft = n + 1 →
    s.port = .write w v :: rest → step s = .next { s with port := rest, busyLeft := n }

/-- 70_reset_and_hazards.md R245, its first two points: a read while `BUSY = 1` changes nothing of the block; of `STATUS` it
shows `BUSY = 1`, `DONE = 0` and the undefined bits 0; nothing is said of any other bit (derived: the slot, the draw and the
reply of the next state are the model's choice, log entries 4, 5 and 1). -/
def Obligations.ABusyBlockAnswersReads : Prop :=
  ∀ (s : State) (n : Nat) (w : BitVec 7) (rest : List Event), s.status.busy = true → s.busyLeft = n + 1 →
    s.port = .read w :: rest →
    ∃ v, step s = .next { s with
        port := rest, busyLeft := n, replies := v :: s.replies, free := { s.free with reads := s.free.reads + 1 } } ∧
      (w = Reg.status.word → v &&& 0x00000003 = 0x00000001 ∧ v &&& ~~~0x00000F1F = 0)

/-- 30_encoding.md R105, `wait`: it stays while a read of `STATUS` shows `BUSY = 1` and ends with the first that shows
`BUSY = 0`, after at least one read (derived: that `wait` is one event which stays at the head of the port is the model's choice,
log entry 12, and so are the slots, log entry 4). -/
def Obligations.WaitPollsUntilTheBlockIsIdle : Prop :=
  ∀ (s : State) (rest : List Event), s.port = .wait :: rest →
    (s.status.busy = false → ∃ t, step s = .next t ∧ t.port = rest ∧ t.replies = statusWord s :: s.replies ∧ SameBlock t s) ∧
    (∀ n, s.status.busy = true → s.busyLeft = n + 1 →
      ∃ t v, step s = .next t ∧ t.port = s.port ∧ t.replies = v :: s.replies ∧ v &&& 0x00000003 = 0x00000001 ∧
        SameBlock t { s with busyLeft := n })

/-- 30_encoding.md R95: the two halves of `COUNTER`. -/
def Obligations.WritingTheCounterSetsItsHalfAndItsFlag : Prop :=
  ∀ (s : State) (v : Word),
    (∃ o, portWrite Reg.counterLo.word v s = { s with ops := o } ∧ o.cntValid = true ∧
      o.counter.extractLsb' 0 32 = v ∧ o.counter.extractLsb' 32 32 = s.ops.counter.extractLsb' 32 32 ∧
      o = { s.ops with counter := o.counter, cntValid := true }) ∧
    (∃ o, portWrite Reg.counterHi.word v s = { s with ops := o } ∧ o.cntValid = true ∧
      o.counter.extractLsb' 32 32 = v ∧ o.counter.extractLsb' 0 32 = s.ops.counter.extractLsb' 0 32 ∧
      o = { s.ops with counter := o.counter, cntValid := true }) ∧
    (s.ops.counter = 0 → (portWrite Reg.counterLo.word v s).ops.counter = v.setWidth 64) ∧
    portRead Reg.counterLo.word s = s.ops.counter.extractLsb' 0 32 ∧
    portRead Reg.counterHi.word s = s.ops.counter.extractLsb' 32 32

/-- 30_encoding.md R98: the two halves of `NOW`, and the time `VERIFY` takes with and without it (derived: that the
time source is a free value drawn by the count of samples is the model's choice, log entry 3). -/
def Obligations.WritingTheTimeSetsItsHalfAndItsFlag : Prop :=
  ∀ (s : State) (v : Word),
    (∃ o, portWrite Reg.nowLo.word v s = { s with ops := o } ∧ o.now.extractLsb' 0 32 = v ∧
      o.now.extractLsb' 32 32 = s.ops.now.extractLsb' 32 32 ∧ o = { s.ops with now := o.now, nowValid := true }) ∧
    (∃ o, portWrite Reg.nowHi.word v s = { s with ops := o } ∧ o.now.extractLsb' 32 32 = v ∧
      o.now.extractLsb' 0 32 = s.ops.now.extractLsb' 0 32 ∧ o = { s.ops with now := o.now, nowValid := true }) ∧
    usedTime s = (if s.ops.nowValid = true then s.ops.now else Config.timeSource s.free.time) ∧
    (VerifyReady s → s.params.zeroCounterMissing = false →
      ∃ t, exec .verify s = .next t ∧ t.res.nowl = usedTime s ∧ t.res.tstep = tstepFn (usedTime s) s.ops.step)

/-- 30_encoding.md R96 and R97: `CODE_LEN`, `STEP` and `ALLOW` take all 32 bits; unwritten they are 6, 30 and 0. -/
def Obligations.WritingTheScalarOperands : Prop :=
  (∀ (s : State) (v : Word),
    portWrite Reg.codeLen.word v s = { s with ops := { s.ops with codeLen := v } } ∧
    portWrite Reg.step.word v s = { s with ops := { s.ops with step := v } } ∧
    portWrite Reg.allow.word v s = { s with ops := { s.ops with allow := v } }) ∧
  State.reset.ops.codeLen = 6 ∧ State.reset.ops.step = 30 ∧ State.reset.ops.allow = 0

/-- 30_encoding.md R99: the key is what was pushed, first byte first, cut at `KEY_MAX`, and the overflow is flagged; bits 31:8 are
ignored; no write of the idle block removes a pushed byte: the discard comes with a completion. -/
def Obligations.PushedKeyBytesAccumulateUpToTheCapacity : Prop :=
  (∀ (vs : List Word) (s : State), s.ops.key.length ≤ s.params.keyMax →
    vs.foldl (fun s v => portWrite Reg.keyPush.word v s) s =
      { s with ops := { s.ops with
          key := (s.ops.key ++ vs.map (fun v => v.extractLsb' 0 8)).take s.params.keyMax
          keyOvf := s.ops.keyOvf || decide (s.params.keyMax < s.ops.key.length + vs.length) } }) ∧
  (∀ (w : BitVec 7) (v : Word) (s : State), s.ops.key <+: (portWrite w v s).ops.key)

/-- 30_encoding.md R100, the same for the token, with capacity `CODE_MAX`; any byte value is accepted. -/
def Obligations.PushedTokenBytesAccumulateUpToTheCapacity : Prop :=
  ∀ (vs : List Word) (s : State), s.ops.token.length ≤ s.params.codeMax →
    vs.foldl (fun s v => portWrite Reg.tokenPush.word v s) s =
      { s with ops := { s.ops with
          token := (s.ops.token ++ vs.map (fun v => v.extractLsb' 0 8)).take s.params.codeMax
          tokOvf := s.ops.tokOvf || decide (s.params.codeMax < s.ops.token.length + vs.length) } }

/-- 60_exceptions.md R215 and 10_state.md R34: while the idle block accepts no command and is not reset, the error stays and the
results persist, whatever else the host does (derived). -/
def Obligations.ErrorsAndResultsStayUntilTheNextCommand : Prop :=
  ∀ s t : State, s.status.busy = false → (∀ w, s.port.head? ≠ some (.write Reg.cmd.word w)) →
    s.port.head? ≠ some .reset → step s = .next t →
    t.status = s.status ∧ t.err = s.err ∧ t.res = s.res ∧ t.lastCmd = s.lastCmd

/-- 10_state.md R28, its second sentence: no register shows a byte of the key, nor of the token (derived: the rule's other
sentences are in other statements). -/
def Obligations.NoRegisterShowsAKeyByte : Prop :=
  ∀ (s s' : State) (w : BitVec 7), SecretsApart s s' → portRead w s = portRead w s'

/-- What the host can learn of the key and the token without a command that reads them: nothing. Two states that differ in the
secrets' bytes alone stay so through every step of the idle block that starts no `HMAC`, `HOTP` or `VERIFY`, and through every
step of the block busy with another word that serves no read; the replies are the same (derived: 10_state.md R27 and R28,
44_control.md R201). Left out, because the spec makes no claim there: the time those three commands stay busy and what a busy
read returns (70_reset_and_hazards.md R245, R250; U13, U22). That another word's busy time is the same in both is the model's
choice (log entry 16): no such word reads a key or a token. -/
def Obligations.SecretsStayHiddenWithoutACommandThatReadsThem : Prop :=
  ∀ s s' : State, SecretsApart s s' →
    (s.status.busy = true → s.lastCmd ≠ 0x00000002 ∧ s.lastCmd ≠ 0x00000003 ∧ s.lastCmd ≠ 0x00000004 ∧
      (s.busyLeft ≠ 0 → (∀ w, s.port.head? ≠ some (.read w)) ∧ s.port.head? ≠ some .wait)) →
    (s.status.busy = false → s.port.head? ≠ some (.write Reg.cmd.word 0x00000002) ∧
      s.port.head? ≠ some (.write Reg.cmd.word 0x00000003) ∧ s.port.head? ≠ some (.write Reg.cmd.word 0x00000004)) →
    ∃ t t', step s = .next t ∧ step s' = .next t' ∧ SecretsApart t t' ∧ t.replies = t'.replies

/-- Only aligned 32-bit accesses inside the block's 512 bytes make a port transaction (derived: 20_memory.md sections 1 and 2; that
any other access makes no event is read from them, log entry 11; `BASE` is a free value, log entry 6). -/
def Obligations.OnlyAlignedWordAccessesReachThePort : Prop :=
  (∀ off : Nat, off < 512 → off % 4 = 0 → ∃ w, busWord (Config.base + off) 4 = some w ∧ 4 * w.toNat = off) ∧
  (∀ address size : Nat, (size ≠ 4 ∨ address % 4 ≠ 0 ∨ address < Config.base ∨ Config.base + 512 ≤ address) →
    busWord address size = none)

/-! ## The pure functions -/

/-- 40_counter_codec.md R120: `e[j] = (c >> (8 * (7 − j))) mod 256`, and the function is injective. -/
def Obligations.TheCounterEncodingIsBigEndianAndInjective : Prop :=
  (∀ (c : Dword) (j : Fin 8), (be64 c)[j].toNat = (c.toNat / 2 ^ (8 * (7 - j.val))) % 256) ∧
  (∀ c c' : Dword, be64 c = be64 c' → c = c')

/-- 42_hotp.md R161 on numbers: the offset is the low nibble of byte 19, the value the four bytes at it, the first without its
top bit. -/
def Obligations.DynamicTruncationTakesFourBytesAtTheOffset : Prop :=
  ∀ d : Vector Byte 20,
    let o := d[19].toNat % 16
    let b := fun j => (d.toList.getD (o + j) 0).toNat
    (dtOffset d).toNat = o ∧
    (dtTruncated d).toNat = (b 0 % 128) * 2 ^ 24 + b 1 * 2 ^ 16 + b 2 * 2 ^ 8 + b 3

/-- 42_hotp.md R163: the modulus is 10^6 for every truncated value, and the value is 0 to 999999. -/
def Obligations.TheCodeValueIsReducedModuloAMillion : Prop :=
  ∀ t : BitVec 31, (codeValue t).toNat = t.toNat % 1000000 ∧ (codeValue t).toNat ≤ 999999

/-- 42_hotp.md R164: the length is `max(n, g(v))`, every byte a digit, padding only on the left, and the digits denote `v`;
`g(0) = 1` (decision D19), and above 0 `g(v)` is the least count that holds `v` (derived: the rule's formula is the definition;
this says what it yields). -/
def Obligations.RenderingPadsAndNeverCuts : Prop :=
  digitCount 0 = 1 ∧ ∀ v n : Nat, v ≤ 999999 →
    (render v n).length = max n (digitCount v) ∧
    (∀ b ∈ render v n, isDigit b = true) ∧
    (render v n).foldl (fun acc b => 10 * acc + (b.toNat - 0x30)) 0 = v ∧
    v < 10 ^ digitCount v ∧ (v ≠ 0 → 10 ^ (digitCount v - 1) ≤ v)

/-- 41_hmac_sha1.md R131: the padded message is whole blocks, at least one, it starts with the message and the byte 0x80, and
`z` is the least number of zero bytes that makes it so; the bytes between 0x80 and the length field are 0x00, and the last 8
bytes are `be64(8 * L)`, said on numbers for messages below 2^61 bytes (log entry 14) (derived: the spec marks the rule as
general knowledge, G1). -/
def Obligations.PaddingFillsWholeBlocks : Prop :=
  ∀ m : Bytes,
    (shaPad m).length % 64 = 0 ∧ 64 ≤ (shaPad m).length ∧ (m ++ [0x80]) <+: shaPad m ∧
    (shaPad m).length = m.length + 1 + shaPadZeros m.length + 8 ∧
    (∀ z, (m.length + 1 + z + 8) % 64 = 0 → shaPadZeros m.length ≤ z) ∧
    (m.length < 2 ^ 61 →
      (∀ j < shaPadZeros m.length, (shaPad m)[m.length + 1 + j]? = some 0x00) ∧
      (∀ j < 8, ∃ b, (shaPad m)[m.length + 1 + shaPadZeros m.length + j]? = some b ∧
        b.toNat = 8 * m.length / 2 ^ (8 * (7 - j)) % 256))

/-- 41_hmac_sha1.md R133, the message schedule (derived: the spec marks the rule as general knowledge, G1). -/
def Obligations.TheMessageScheduleFollowsItsRecurrence : Prop :=
  ∀ block : Bytes,
    let w := shaSchedule block
    w.length = 80 ∧
    (∀ t, t < 16 → w.getD t 0 = fromBe32 (block.getD (4 * t) 0) (block.getD (4 * t + 1) 0) (block.getD (4 * t + 2) 0)
      (block.getD (4 * t + 3) 0)) ∧
    (∀ t, 16 ≤ t → t < 80 →
      w.getD t 0 = rotl32 (w.getD (t - 3) 0 ^^^ w.getD (t - 8) 0 ^^^ w.getD (t - 14) 0 ^^^ w.getD (t - 16) 0) 1)

/-- 41_hmac_sha1.md R137: the key block is 64 bytes; a key of up to 64 bytes is used as it is, a longer one is hashed first
(derived: the spec marks the rule as general knowledge, G2). -/
def Obligations.TheKeyBlockIsSixtyFourBytes : Prop :=
  ∀ k : Bytes, (hmacKeyBlock k).length = 64 ∧
    (k.length ≤ 64 → k <+: hmacKeyBlock k ∧ ∀ b ∈ (hmacKeyBlock k).drop k.length, b = 0) ∧
    (64 < k.length → hmacKeyBlock k = (sha1 k).toList ++ List.replicate 44 0)

/-- 41_hmac_sha1.md R139 and 70_reset_and_hazards.md R250: the count of compressions of one HMAC over 8 bytes (derived). -/
def Obligations.OneHmacCostsFourBlocksAndTheKeys : Prop :=
  ∀ k m : Bytes, m.length = 8 → hmacCalls k m = hmacWork k.length

/-- 43_totp_verify.md R181: the floor of the quotient, for every time and every step of at least 1; with a step of 0 `VERIFY` does
not compute it. -/
def Obligations.TheTimeStepIsTheFloorOfTheQuotient : Prop :=
  (∀ (n : Dword) (s : Word), s ≠ 0 → (tstepFn n s).toNat = n.toNat / s.toNat ∧ (tstepFn n s).toNat ≤ n.toNat) ∧
  (∀ s : State, s.ops.step = 0 → ∃ t, exec .verify s = .next t ∧ t.status.err = true ∧ t.res = ResultBank.cleared ∧
    t.free.time = s.free.time)

/-- 43_totp_verify.md R183: `T − a` first, then one more at each index modulo 2^64, `T` in the middle, `T + a` last, none twice;
on naturals exactly the document's range when nothing wraps, and the counters of the two wrapped cases. -/
def Obligations.TheWindowAscendsAndVisitsEachCounterOnce : Prop :=
  ∀ (t : Dword) (a : Word),
    (∀ k, window t a k = (t - a.setWidth 64) + BitVec.ofNat 64 k) ∧
    window t a 0 = t - a.setWidth 64 ∧ (∀ k, window t a (k + 1) = window t a k + 1) ∧ window t a a.toNat = t ∧
    window t a (2 * a.toNat) = t + a.setWidth 64 ∧
    (∀ j k, j ≤ 2 * a.toNat → k ≤ 2 * a.toNat → window t a j = window t a k → j = k) ∧
    (a.toNat ≤ t.toNat → t.toNat + a.toNat ≤ 2 ^ 64 - 1 →
      ∀ k ≤ 2 * a.toNat, (window t a k).toNat + a.toNat = t.toNat + k) ∧
    (t.toNat < a.toNat → (∀ k < a.toNat - t.toNat, (window t a k).toNat = 2 ^ 64 - (a.toNat - t.toNat) + k) ∧
      window t a (a.toNat - t.toNat) = 0) ∧
    (2 ^ 64 - 1 < t.toNat + a.toNat → (window t a (2 ^ 64 - 1 - t.toNat + a.toNat)).toNat = 2 ^ 64 - 1 ∧
      window t a (2 ^ 64 - t.toNat + a.toNat) = 0)

/-- The known answers of 41_hmac_sha1.md R135 and R140 and of 42_hotp.md R169: SHA-1 of `"abc"`, and the codes of the counters
0 and 1 under the key `"12345678901234567890"` (derived: they stand in rules that say more). -/
def Obligations.TheKnownAnswersComeOut : Prop :=
  (sha1 [0x61, 0x62, 0x63]).toList =
    [0xa9, 0x99, 0x3e, 0x36, 0x47, 0x06, 0x81, 0x6a, 0xba, 0x3e, 0x25, 0x71, 0x78, 0x50, 0xc2, 0x6c, 0x9c, 0xd0, 0xd8, 0x9d] ∧
  (hotpFn (asciiBytes ['1', '2', '3', '4', '5', '6', '7', '8', '9', '0', '1', '2', '3', '4', '5', '6', '7', '8', '9', '0'])
    0 6).code = asciiBytes ['7', '5', '5', '2', '2', '4'] ∧
  (hotpFn (asciiBytes ['1', '2', '3', '4', '5', '6', '7', '8', '9', '0', '1', '2', '3', '4', '5', '6', '7', '8', '9', '0'])
    1 6).code = asciiBytes ['2', '8', '7', '0', '8', '2']

/-! ## What the port reads and serves -/

/-- 10_state.md R41, the columns "bit" and "field": what the idle block shows at 0x004, each flag at its bit and every other bit 0;
`statusWord`, in which other statements speak of `STATUS`, is that word (derived: R41 is stated in part). -/
def Obligations.StatusShowsEachFlagAtItsBit : Prop :=
  ∀ s : State,
    let v := portRead (BitVec.ofNat 7 (0x004 / 4)) s
    v.getLsbD 0 = s.status.busy ∧ v.getLsbD 1 = s.status.done ∧ v.getLsbD 2 = s.status.err ∧
    v.getLsbD 3 = s.res.matched ∧ v.getLsbD 4 = s.res.wrap ∧
    v.getLsbD 8 = s.ops.cntValid ∧ v.getLsbD 9 = s.ops.nowValid ∧ v.getLsbD 10 = s.ops.keyOvf ∧ v.getLsbD 11 = s.ops.tokOvf ∧
    (∀ i, i ∉ [0, 1, 2, 3, 4, 8, 9, 10, 11] → v.getLsbD i = false) ∧ v = statusWord s

/-- 10_state.md R29, R42 and R44 at the offsets of 20_memory.md R63: the operand, error and last-command registers of the idle
block read the value currently held, zero-extended. `ERR`, `KEY_LEN` and `TOKEN_LEN` are narrower than the model's fields, so they
are said of states that meet the invariant, which reset meets and every step keeps (derived: the rules are stated in part). -/
def Obligations.TheOperandRegistersReadWhatTheyHold : Prop :=
  ∀ s : State,
    let rd := fun off : Nat => portRead (BitVec.ofNat 7 (off / 4)) s
    rd 0x00C = s.lastCmd ∧
    rd 0x010 = s.ops.counter.extractLsb' 0 32 ∧ rd 0x014 = s.ops.counter.extractLsb' 32 32 ∧
    rd 0x018 = s.ops.codeLen ∧ rd 0x01C = s.ops.step ∧ rd 0x020 = s.ops.allow ∧
    rd 0x024 = s.ops.now.extractLsb' 0 32 ∧ rd 0x028 = s.ops.now.extractLsb' 32 32 ∧
    (s.Inv → rd 0x008 = s.err ∧ (rd 0x030).toNat = s.ops.key.length ∧ (rd 0x038).toNat = s.ops.token.length)

/-- 10_state.md R30 and R33 at the offsets of 20_memory.md R63: the result registers of the idle block read the members of the
result bank, a byte string's first byte in bits 31:24 (20_memory.md R72), a code byte in bits 7:0 and 0 at and beyond
`CODE_OUT_LEN`; the length is said of states that meet the invariant (derived: the rules are stated in part). -/
def Obligations.TheResultRegistersReadWhatTheyHold : Prop :=
  ∀ s : State,
    let rd := fun off : Nat => portRead (BitVec.ofNat 7 (off / 4)) s
    let word := fun (bytes : Bytes) (i : Nat) => (bytes.getD i 0).toNat * 2 ^ 24 + (bytes.getD (i + 1) 0).toNat * 2 ^ 16 +
      (bytes.getD (i + 2) 0).toNat * 2 ^ 8 + (bytes.getD (i + 3) 0).toNat
    (rd 0x040).toNat = word s.res.enc.toList 0 ∧ (rd 0x044).toNat = word s.res.enc.toList 4 ∧
    (∀ n < 5, (rd (0x048 + 4 * n)).toNat = word s.res.digest.toList (4 * n)) ∧
    (rd 0x05C).toNat = s.res.offset.toNat ∧ (rd 0x060).toNat = s.res.trunc.toNat ∧ (rd 0x064).toNat = s.res.codeVal.toNat ∧
    (s.Inv → (rd 0x068).toNat = s.res.code.length) ∧
    rd 0x06C = s.res.tstep.extractLsb' 0 32 ∧ rd 0x070 = s.res.tstep.extractLsb' 32 32 ∧
    rd 0x074 = s.res.nowl.extractLsb' 0 32 ∧ rd 0x078 = s.res.nowl.extractLsb' 32 32 ∧
    (∀ j < 64, j < s.params.codeMax → (rd (0x100 + 4 * j)).toNat = (s.res.code.getD j 0).toNat) ∧
    (∀ j < 64, s.res.code.length ≤ j → rd (0x100 + 4 * j) = 0)

/-- 20_memory.md R60, R64 and R75: the idle block takes the next write of the port, whatever its address and value, with the
effect the statements on `portWrite` give, and with nothing at the port it stays as it is; an address has one register, the one
those statements name by `Reg.word` (derived: that the events to come are a list in the state is the model's choice, log
entry 1). -/
def Obligations.TheIdleBlockServesWritesAndElseStays : Prop :=
  (∀ (s : State) (w : BitVec 7) (v : Word) (rest : List Event), s.status.busy = false → s.port = .write w v :: rest →
    step s = .next (portWrite w v { s with port := rest })) ∧
  (∀ s : State, s.status.busy = false → s.port = [] → step s = .next s) ∧
  (∀ (codeMax : Nat) (w : BitVec 7) (r : Reg), regAt codeMax w = some r → w = r.word)
end

