-- ==== Sys2Proof/Laws/State.lean ====
section
/-! SUPPORT. Laws/State.lean: one lemma for each field under each named update of the state, so that no later proof unfolds a
record update. -/

namespace Sys2Proof.Machine

open Sys2Proof

section Begin
variable (w : Word) (s : State)

@[simp] theorem beginCommand_params : (beginCommand w s).params = s.params := rfl
@[simp] theorem beginCommand_ops : (beginCommand w s).ops = s.ops := rfl
@[simp] theorem beginCommand_res : (beginCommand w s).res = { s.res with matched := false, wrap := false } := rfl
@[simp] theorem beginCommand_status : (beginCommand w s).status = { busy := true, done := false, err := false } := rfl
@[simp] theorem beginCommand_err : (beginCommand w s).err = 0 := rfl
@[simp] theorem beginCommand_lastCmd : (beginCommand w s).lastCmd = w := rfl
@[simp] theorem beginCommand_busyLeft : (beginCommand w s).busyLeft = s.busyLeft := rfl
@[simp] theorem beginCommand_free : (beginCommand w s).free = s.free := rfl
@[simp] theorem beginCommand_port : (beginCommand w s).port = s.port := rfl
@[simp] theorem beginCommand_replies : (beginCommand w s).replies = s.replies := rfl

end Begin

section Start
variable (i : Instr) (s : State)

@[simp] theorem startCommand_params : (startCommand i s).params = s.params := rfl
@[simp] theorem startCommand_ops : (startCommand i s).ops = s.ops := rfl
@[simp] theorem startCommand_res :
    (startCommand i s).res = ({ s.res with matched := false, wrap := false } : ResultBank).clearSet (writeSet i) := rfl
@[simp] theorem startCommand_status : (startCommand i s).status = { busy := true, done := false, err := false } := rfl
@[simp] theorem startCommand_err : (startCommand i s).err = 0 := rfl
@[simp] theorem startCommand_lastCmd : (startCommand i s).lastCmd = encode i := rfl
@[simp] theorem startCommand_busyLeft : (startCommand i s).busyLeft = s.busyLeft := rfl
@[simp] theorem startCommand_free : (startCommand i s).free = s.free := rfl
@[simp] theorem startCommand_port : (startCommand i s).port = s.port := rfl
@[simp] theorem startCommand_replies : (startCommand i s).replies = s.replies := rfl

end Start

section Complete
variable (s : State)

@[simp] theorem complete_params : (complete s).params = s.params := rfl
@[simp] theorem complete_ops : (complete s).ops = OperandBank.default := rfl
@[simp] theorem complete_res : (complete s).res = s.res := rfl
@[simp] theorem complete_status : (complete s).status = { busy := false, done := true, err := s.status.err } := rfl
@[simp] theorem complete_err : (complete s).err = s.err := rfl
@[simp] theorem complete_lastCmd : (complete s).lastCmd = s.lastCmd := rfl
@[simp] theorem complete_busyLeft : (complete s).busyLeft = 0 := rfl
@[simp] theorem complete_free : (complete s).free = s.free := rfl
@[simp] theorem complete_port : (complete s).port = s.port := rfl
@[simp] theorem complete_replies : (complete s).replies = s.replies := rfl

end Complete

section Raise
variable (ws : List ResMember) (k : ErrKind) (info : Word) (s : State)

@[simp] theorem raiseError_params : (raiseError ws k info s).params = s.params := rfl
@[simp] theorem raiseError_ops : (raiseError ws k info s).ops = OperandBank.default := rfl
@[simp] theorem raiseError_res : (raiseError ws k info s).res = s.res.clearSet ws := rfl
@[simp] theorem raiseError_status : (raiseError ws k info s).status = { busy := false, done := true, err := true } := rfl
@[simp] theorem raiseError_err : (raiseError ws k info s).err = errWord k info := rfl
@[simp] theorem raiseError_lastCmd : (raiseError ws k info s).lastCmd = s.lastCmd := rfl
@[simp] theorem raiseError_busyLeft : (raiseError ws k info s).busyLeft = 0 := rfl
@[simp] theorem raiseError_free : (raiseError ws k info s).free = s.free := rfl
@[simp] theorem raiseError_port : (raiseError ws k info s).port = s.port := rfl
@[simp] theorem raiseError_replies : (raiseError ws k info s).replies = s.replies := rfl

end Raise

section Finish
variable (ws : List ResMember) (k : ErrKind) (info : Word) (s : State)

@[simp] theorem finish_finished : finish ws (.finished s) = complete s := rfl
@[simp] theorem finish_raised : finish ws (.raised k info s) = raiseError ws k info s := rfl

end Finish

section Accept
variable (w : Word) (s : State)

@[simp] theorem acceptCommand_params : (acceptCommand w s).params = s.params := rfl
@[simp] theorem acceptCommand_ops : (acceptCommand w s).ops = s.ops := rfl
@[simp] theorem acceptCommand_res : (acceptCommand w s).res = { s.res with matched := false, wrap := false } := rfl
@[simp] theorem acceptCommand_status : (acceptCommand w s).status = { busy := true, done := false, err := false } := rfl
@[simp] theorem acceptCommand_err : (acceptCommand w s).err = 0 := rfl
@[simp] theorem acceptCommand_lastCmd : (acceptCommand w s).lastCmd = w := rfl
@[simp] theorem acceptCommand_busyLeft : (acceptCommand w s).busyLeft = Config.busySlots s.free.slots := rfl
@[simp] theorem acceptCommand_free : (acceptCommand w s).free = { s.free with slots := s.free.slots + 1 } := rfl
@[simp] theorem acceptCommand_port : (acceptCommand w s).port = s.port := rfl
@[simp] theorem acceptCommand_replies : (acceptCommand w s).replies = s.replies := rfl

end Accept

section Reply
variable (v : Word) (s : State)

@[simp] theorem reply_params : (reply v s).params = s.params := rfl
@[simp] theorem reply_ops : (reply v s).ops = s.ops := rfl
@[simp] theorem reply_res : (reply v s).res = s.res := rfl
@[simp] theorem reply_status : (reply v s).status = s.status := rfl
@[simp] theorem reply_err : (reply v s).err = s.err := rfl
@[simp] theorem reply_lastCmd : (reply v s).lastCmd = s.lastCmd := rfl
@[simp] theorem reply_busyLeft : (reply v s).busyLeft = s.busyLeft := rfl
@[simp] theorem reply_free : (reply v s).free = s.free := rfl
@[simp] theorem reply_port : (reply v s).port = s.port := rfl
@[simp] theorem reply_replies : (reply v s).replies = v :: s.replies := rfl

end Reply

section BusyReply
variable (view : Word → Word) (s : State)

@[simp] theorem busyReply_params : (busyReply view s).params = s.params := rfl
@[simp] theorem busyReply_ops : (busyReply view s).ops = s.ops := rfl
@[simp] theorem busyReply_res : (busyReply view s).res = s.res := rfl
@[simp] theorem busyReply_status : (busyReply view s).status = s.status := rfl
@[simp] theorem busyReply_err : (busyReply view s).err = s.err := rfl
@[simp] theorem busyReply_lastCmd : (busyReply view s).lastCmd = s.lastCmd := rfl
@[simp] theorem busyReply_busyLeft : (busyReply view s).busyLeft = s.busyLeft := rfl
@[simp] theorem busyReply_free : (busyReply view s).free = { s.free with reads := s.free.reads + 1 } := rfl
@[simp] theorem busyReply_port : (busyReply view s).port = s.port := rfl
@[simp] theorem busyReply_replies :
    (busyReply view s).replies = view (Config.busyRead s.free.reads) :: s.replies := rfl

end BusyReply

section Reset
variable (s : State)

@[simp] theorem applyReset_params : (applyReset s).params = s.params := rfl
@[simp] theorem applyReset_ops : (applyReset s).ops = OperandBank.default := rfl
@[simp] theorem applyReset_res : (applyReset s).res = ResultBank.cleared := rfl
@[simp] theorem applyReset_status : (applyReset s).status = { busy := false, done := false, err := false } := rfl
@[simp] theorem applyReset_err : (applyReset s).err = 0 := rfl
@[simp] theorem applyReset_lastCmd : (applyReset s).lastCmd = 0 := rfl
@[simp] theorem applyReset_busyLeft : (applyReset s).busyLeft = 0 := rfl
@[simp] theorem applyReset_free : (applyReset s).free = s.free := rfl
@[simp] theorem applyReset_port : (applyReset s).port = s.port := rfl
@[simp] theorem applyReset_replies : (applyReset s).replies = s.replies := rfl

end Reset

section Latch
variable (n : Dword) (s : State)

@[simp] theorem latchTime_params : (latchTime n s).params = s.params := rfl
@[simp] theorem latchTime_ops : (latchTime n s).ops = s.ops := rfl
@[simp] theorem latchTime_res : (latchTime n s).res =
    { s.res with
      nowl := n, tstep := tstepFn n s.ops.step, wrap := windowWraps (tstepFn n s.ops.step) s.ops.allow } := rfl
@[simp] theorem latchTime_status : (latchTime n s).status = s.status := rfl
@[simp] theorem latchTime_err : (latchTime n s).err = s.err := rfl
@[simp] theorem latchTime_lastCmd : (latchTime n s).lastCmd = s.lastCmd := rfl
@[simp] theorem latchTime_busyLeft : (latchTime n s).busyLeft = s.busyLeft := rfl
@[simp] theorem latchTime_free : (latchTime n s).free = s.free := rfl
@[simp] theorem latchTime_port : (latchTime n s).port = s.port := rfl
@[simp] theorem latchTime_replies : (latchTime n s).replies = s.replies := rfl

end Latch

section Sample
variable (s : State)

/-- `sampleTime` changes the count of samples alone. -/
theorem sampleTime_eq : sampleTime s =
    { s with free := { s.free with time := if s.ops.nowValid then s.free.time else s.free.time + 1 } } := by
  unfold sampleTime
  cases h : s.ops.nowValid <;> simp

@[simp] theorem sampleTime_params : (sampleTime s).params = s.params := by rw [sampleTime_eq]
@[simp] theorem sampleTime_ops : (sampleTime s).ops = s.ops := by rw [sampleTime_eq]
@[simp] theorem sampleTime_res : (sampleTime s).res = s.res := by rw [sampleTime_eq]
@[simp] theorem sampleTime_status : (sampleTime s).status = s.status := by rw [sampleTime_eq]
@[simp] theorem sampleTime_err : (sampleTime s).err = s.err := by rw [sampleTime_eq]
@[simp] theorem sampleTime_lastCmd : (sampleTime s).lastCmd = s.lastCmd := by rw [sampleTime_eq]
@[simp] theorem sampleTime_busyLeft : (sampleTime s).busyLeft = s.busyLeft := by rw [sampleTime_eq]
@[simp] theorem sampleTime_port : (sampleTime s).port = s.port := by rw [sampleTime_eq]
@[simp] theorem sampleTime_replies : (sampleTime s).replies = s.replies := by rw [sampleTime_eq]
@[simp] theorem sampleTime_slots : (sampleTime s).free.slots = s.free.slots := by rw [sampleTime_eq]
@[simp] theorem sampleTime_reads : (sampleTime s).free.reads = s.free.reads := by rw [sampleTime_eq]
theorem sampleTime_time : (sampleTime s).free.time = if s.ops.nowValid then s.free.time else s.free.time + 1 := by
  rw [sampleTime_eq]

end Sample

section StoreHotp
variable (r : ResultBank) (out : HotpOut)

@[simp] theorem storeHotp_enc : (r.storeHotp out).enc = out.enc := rfl
@[simp] theorem storeHotp_digest : (r.storeHotp out).digest = out.digest := rfl
@[simp] theorem storeHotp_offset : (r.storeHotp out).offset = out.offset := rfl
@[simp] theorem storeHotp_trunc : (r.storeHotp out).trunc = out.trunc := rfl
@[simp] theorem storeHotp_codeVal : (r.storeHotp out).codeVal = out.codeVal := rfl
@[simp] theorem storeHotp_code : (r.storeHotp out).code = out.code := rfl
@[simp] theorem storeHotp_tstep : (r.storeHotp out).tstep = r.tstep := rfl
@[simp] theorem storeHotp_nowl : (r.storeHotp out).nowl = r.nowl := rfl
@[simp] theorem storeHotp_matched : (r.storeHotp out).matched = r.matched := rfl
@[simp] theorem storeHotp_wrap : (r.storeHotp out).wrap = r.wrap := rfl

end StoreHotp

section Events
variable (s : State) (rest : List Event)

@[simp] theorem usedTime_startCommand (i : Instr) : usedTime (startCommand i s) = usedTime s := rfl

end Events

end Sys2Proof.Machine
end

