-- ==== Sys2Proof/Laws/Ops.lean ====
section
/-! SUPPORT. Laws/Ops.lean: what each shared operation of a command can do, said once: the gathered checks, the
write sets, the frame of every body, and what a whole command leaves. -/

namespace Sys2Proof.Machine

open Sys2Proof

/-- What the gathered checks can do (60_exceptions.md R213). -/
theorem checked_cases (miss bad : Word) (f : State → CmdEnd) (s : State) :
    (miss ≠ 0 ∧ checked miss bad f s = .raised .missingParameter miss s) ∨
    (miss = 0 ∧ bad ≠ 0 ∧ checked miss bad f s = .raised .invalidParameter bad s) ∨
    (miss = 0 ∧ bad = 0 ∧ checked miss bad f s = f s) := by
  by_cases hm : miss = 0
  · by_cases hb : bad = 0
    · exact .inr (.inr ⟨hm, hb, by rw [checked, if_neg (not_not.mpr hm), if_neg (not_not.mpr hb)]⟩)
    · exact .inr (.inl ⟨hm, hb, by rw [checked, if_neg (not_not.mpr hm), if_pos hb]⟩)
  · exact .inl ⟨hm, by rw [checked, if_pos hm]⟩

theorem sameAt_rfl (m : ResMember) (r : ResultBank) : ResultBank.sameAt m r r := by cases m <;> rfl
theorem sameAt_symm {m : ResMember} {a b : ResultBank} (h : ResultBank.sameAt m a b) : ResultBank.sameAt m b a := by
  cases m <;> exact Eq.symm h
theorem sameAt_trans {m : ResMember} {a b c : ResultBank} (h : ResultBank.sameAt m a b) (h' : ResultBank.sameAt m b c) :
    ResultBank.sameAt m a c := by
  cases m <;> exact Eq.trans h h'

theorem clearMember_sameAt (r : ResultBank) (m n : ResMember) (h : n ≠ m) : ResultBank.sameAt n r (r.clearMember m) := by
  cases m <;> cases n <;> first | rfl | exact absurd rfl h

theorem clearMember_cleared (r : ResultBank) (m : ResMember) : ResultBank.sameAt m (r.clearMember m) ResultBank.cleared := by
  cases m <;> rfl

theorem clearMember_keeps_cleared (r : ResultBank) (m n : ResMember) (h : ResultBank.sameAt n r ResultBank.cleared) :
    ResultBank.sameAt n (r.clearMember m) ResultBank.cleared := by
  by_cases e : n = m
  · subst e; exact clearMember_cleared r n
  · exact sameAt_trans (sameAt_symm (clearMember_sameAt r m n e)) h

theorem clearSet_nil (r : ResultBank) : r.clearSet [] = r := rfl
theorem clearSet_cons (r : ResultBank) (m : ResMember) (ws : List ResMember) :
    r.clearSet (m :: ws) = (r.clearMember m).clearSet ws := rfl

/-- Clearing a write set keeps every member outside it (10_state.md R31). -/
theorem clearSet_kept (ws : List ResMember) (r : ResultBank) : KeptOutside ws r (r.clearSet ws) := by
  induction ws generalizing r with
  | nil => intro m _; exact sameAt_rfl m r
  | cons a ws ih =>
    intro m hm
    rw [List.mem_cons, not_or] at hm
    exact sameAt_trans (clearMember_sameAt r a m hm.1) (ih _ m hm.2)

theorem clearSet_keeps_cleared (ws : List ResMember) (r : ResultBank) (n : ResMember)
    (h : ResultBank.sameAt n r ResultBank.cleared) : ResultBank.sameAt n (r.clearSet ws) ResultBank.cleared := by
  induction ws generalizing r with
  | nil => exact h
  | cons a ws ih => exact ih _ (clearMember_keeps_cleared r a n h)

/-- Clearing a write set clears its members (10_state.md R32). -/
theorem clearSet_clears (ws : List ResMember) (r : ResultBank) : ClearedOn ws (r.clearSet ws) := by
  induction ws generalizing r with
  | nil => intro m hm; cases hm
  | cons a ws ih =>
    intro m hm
    rcases List.mem_cons.mp hm with rfl | hm
    · exact clearSet_keeps_cleared ws _ m (clearMember_cleared r m)
    · exact ih _ m hm

/-- Result banks that agree at every member are equal. -/
theorem ext_of_sameAt {a b : ResultBank} (h : ∀ m, ResultBank.sameAt m a b) : a = b := by
  have h1 := h .enc; have h2 := h .digest; have h3 := h .offset; have h4 := h .trunc; have h5 := h .codeVal
  have h6 := h .code; have h7 := h .tstep; have h8 := h .nowl; have h9 := h .matched; have h10 := h .wrap
  simp only [ResultBank.sameAt] at *
  cases a; cases b; simp_all

theorem clearSet_eq_of_clearedOn {ws : List ResMember} {r : ResultBank} (h : ClearedOn ws r) : r.clearSet ws = r := by
  apply ext_of_sameAt
  intro m
  by_cases hm : m ∈ ws
  · exact sameAt_trans (clearSet_clears ws r m hm) (sameAt_symm (h m hm))
  · exact sameAt_symm (clearSet_kept ws r m hm)

theorem clearSet_verify (r : ResultBank) : r.clearSet (writeSet .verify) = ResultBank.cleared := by
  apply ext_of_sameAt
  intro m
  exact clearSet_clears _ r m (by cases m <;> decide)
theorem clearSet_clear (r : ResultBank) : r.clearSet (writeSet .clear) = ResultBank.cleared := clearSet_verify r

/-- What the body of a command whose write set is `ws` leaves as it was. -/
structure BodyFrame (ws : List ResMember) (s t : State) : Prop where
  params : t.params = s.params
  ops : t.ops = s.ops
  status : t.status = s.status
  err : t.err = s.err
  lastCmd : t.lastCmd = s.lastCmd
  port : t.port = s.port
  replies : t.replies = s.replies
  slots : t.free.slots = s.free.slots
  reads : t.free.reads = s.free.reads
  res : KeptOutside ws s.res t.res

/-- `BodyFrame` for either end of a body. -/
def EndFrame (ws : List ResMember) (s : State) : CmdEnd → Prop
  | .finished t => BodyFrame ws s t
  | .raised _ _ t => BodyFrame ws s t

theorem BodyFrame.refl (ws) (s : State) : BodyFrame ws s s := by
  constructor <;> first | rfl | exact fun m _ => sameAt_rfl m _

theorem checked_frame {ws miss bad f} {s : State} (h : EndFrame ws s (f s)) : EndFrame ws s (checked miss bad f s) := by
  obtain ⟨-, e⟩ | ⟨-, -, e⟩ | ⟨-, -, e⟩ := checked_cases miss bad f s <;> rw [e]
  · exact BodyFrame.refl ws s
  · exact BodyFrame.refl ws s
  · exact h

theorem encodeBody_frame (s : State) : EndFrame (writeSet .encode) s (encodeBody s) := by
  constructor <;> first | rfl | (intro m hm; cases m <;> first | exact absurd (by decide) hm | rfl)
theorem setDigest_kept (r : ResultBank) (d : Vector Byte 20) : KeptOutside [.digest] r { r with digest := d } := by
  intro m hm
  cases m <;> first | exact absurd (by decide) hm | rfl
theorem hmacBody_frame (s : State) : EndFrame (writeSet .hmac) s (hmacBody s) := by
  apply checked_frame
  exact ⟨rfl, rfl, rfl, rfl, rfl, rfl, rfl, rfl, rfl, setDigest_kept _ _⟩
theorem storeHotp_kept (r : ResultBank) (out : HotpOut) : KeptOutside hotpSet r (r.storeHotp out) := by
  intro m hm
  cases m <;> first | exact absurd (by decide) hm | rfl
theorem hotpBody_frame (s : State) : EndFrame (writeSet .hotp) s (hotpBody s) := by
  apply checked_frame
  exact ⟨rfl, rfl, rfl, rfl, rfl, rfl, rfl, rfl, rfl, storeHotp_kept _ _⟩
theorem clearBody_frame (s : State) : EndFrame (writeSet .clear) s (clearBody s) := BodyFrame.refl _ s
theorem mem_writeSet_verify (m : ResMember) : m ∈ writeSet .verify := by cases m <;> decide
theorem verifyBody_frame (s : State) : EndFrame (writeSet .verify) s (verifyBody s) := by
  apply checked_frame
  unfold verifyCompute verifyAt
  generalize verifyScan (usedTime s) (sampleTime s) = e
  cases e <;> (constructor <;> first | rfl | exact fun m hm => absurd (mem_writeSet_verify m) hm | simp)

/-- What a whole command leaves. -/
theorem runBody_completed (i : Instr) (body : State → CmdEnd) (s : State)
    (h : EndFrame (writeSet i) (startCommand i s) (body (startCommand i s))) :
    Completed (encode i) s (runBody i body s) := by
  unfold runBody
  generalize hb : body (startCommand i s) = e at h
  cases e with
  | finished t => exact ⟨rfl, rfl, rfl, rfl, h.lastCmd, h.params, h.port, h.replies, h.slots, h.reads⟩
  | raised k info t => exact ⟨rfl, rfl, rfl, rfl, h.lastCmd, h.params, h.port, h.replies, h.slots, h.reads⟩

theorem startCommand_kept (i : Instr) (s : State) :
    KeptOutside (writeSet i ++ [.matched, .wrap]) s.res (startCommand i s).res := by
  intro m hm
  rw [List.mem_append, not_or] at hm
  refine sameAt_trans ?_ (clearSet_kept (writeSet i) _ m hm.1)
  cases m <;> first | rfl | exact absurd (by decide) hm.2

/-- A whole command keeps every result outside its write set, but for `MATCH` and `WRAP` (10_state.md R31). -/
theorem runBody_kept (i : Instr) (body : State → CmdEnd) (s : State)
    (h : EndFrame (writeSet i) (startCommand i s) (body (startCommand i s))) :
    KeptOutside (writeSet i ++ [.matched, .wrap]) s.res (runBody i body s).res := by
  unfold runBody
  generalize hb : body (startCommand i s) = e at h
  intro m hm
  have hs := startCommand_kept i s m hm
  rw [List.mem_append, not_or] at hm
  cases e with
  | finished t => exact sameAt_trans hs (h.res m hm.1)
  | raised k info t => exact sameAt_trans (sameAt_trans hs (h.res m hm.1)) (clearSet_kept _ _ m hm.1)

/-- How a whole command ends: without an error, or with the error its body raised and its write set cleared. -/
theorem runBody_cases (i : Instr) (body : State → CmdEnd) (s : State)
    (h : EndFrame (writeSet i) (startCommand i s) (body (startCommand i s))) :
    (∃ t, body (startCommand i s) = .finished t ∧ runBody i body s = complete t ∧ (runBody i body s).status.err = false ∧
      (runBody i body s).err = 0) ∨
    (∃ k info t, body (startCommand i s) = .raised k info t ∧ (runBody i body s).status.err = true ∧
      (runBody i body s).err = errWord k info ∧ ClearedOn (writeSet i ++ [.matched, .wrap]) (runBody i body s).res) := by
  unfold runBody
  generalize hb : body (startCommand i s) = e at h
  cases e with
  | finished t =>
    refine .inl ⟨t, rfl, rfl, ?_, ?_⟩
    · simp [h.status]
    · simp [h.err]
  | raised k info t =>
    refine .inr ⟨k, info, t, rfl, rfl, rfl, ?_⟩
    intro m hm
    by_cases hw : m ∈ writeSet i
    · exact clearSet_clears _ _ m hw
    · refine sameAt_trans (sameAt_symm (clearSet_kept _ _ m hw)) ?_
      refine sameAt_trans (sameAt_symm (h.res m hw)) ?_
      refine sameAt_trans (sameAt_symm (clearSet_kept _ _ m hw)) ?_
      rw [List.mem_append] at hm
      rcases hm with hm | hm
      · exact absurd hm hw
      · cases m <;> first | rfl | exact absurd hm (by decide)

/-- The body of each command. -/
def bodyOf : Instr → State → CmdEnd
  | .encode => encodeBody
  | .hmac => hmacBody
  | .hotp => hotpBody
  | .verify => verifyBody
  | .clear => clearBody

/-- `exec` is the life of a command around its body. -/
theorem exec_eq (i : Instr) (s : State) : exec i s = .next (runBody i (bodyOf i) s) := by cases i <;> rfl
/-- Every body keeps its frame. -/
theorem bodyOf_frame (i : Instr) (s : State) : EndFrame (writeSet i) s (bodyOf i s) := by
  cases i
  · exact encodeBody_frame s
  · exact hmacBody_frame s
  · exact hotpBody_frame s
  · exact verifyBody_frame s
  · exact clearBody_frame s

end Sys2Proof.Machine
end

