-- ==== Sys2Proof/Laws/Command.lean ====
section
/-! SUPPORT. Laws/Command.lean: a whole command by the way its body ends, the checks that pass, and `STATUS` after it. -/

namespace Sys2Proof.Machine

open Sys2Proof

/-- `STATUS` after any completed command (10_state.md R41). -/
theorem statusWord_completed {w : Word} {s t : State} (h : Completed w s t) :
    statusWord t = 0x00000002 ||| flagBit t.status.err 2 ||| flagBit t.res.matched 3 ||| flagBit t.res.wrap 4 := by
  simp only [statusWord, h.idle, h.done, h.discarded]
  cases t.status.err <;> cases t.res.matched <;> cases t.res.wrap <;> rfl

/-- What every command leaves. -/
theorem completed_body (i : Instr) (s : State) : Completed (encode i) s (runBody i (bodyOf i) s) :=
  runBody_completed i _ s (bodyOf_frame i _)

/-- A command whose body finishes succeeds. -/
theorem runBody_finished {i : Instr} {s u : State} (h : bodyOf i (startCommand i s) = .finished u) :
    runBody i (bodyOf i) s = complete u ∧ Succeeded (encode i) s (complete u) := by
  have e : runBody i (bodyOf i) s = complete u := by rw [runBody, h]; rfl
  have hf : EndFrame (writeSet i) (startCommand i s) (.finished u) := h ▸ bodyOf_frame i _
  refine ⟨e, e ▸ completed_body i s, ?_, ?_⟩
  · rw [complete_status, hf.status]; rfl
  · rw [complete_err, hf.err]; rfl

/-- A command whose body raises an error fails with that error. -/
theorem runBody_raised {i : Instr} {s u : State} {k : ErrKind} {info : Word}
    (h : bodyOf i (startCommand i s) = .raised k info u) :
    runBody i (bodyOf i) s = raiseError (writeSet i) k info u ∧
    Failed (encode i) (writeSet i) (errWord k info) s (raiseError (writeSet i) k info u) := by
  have hf := bodyOf_frame i (startCommand i s)
  have e : runBody i (bodyOf i) s = raiseError (writeSet i) k info u := by rw [runBody, h]; rfl
  rcases runBody_cases i _ s hf with ⟨v, hv, -⟩ | ⟨k', i', v, hv, -, -, h4⟩
  · rw [h] at hv; cases hv
  · have hk := runBody_kept i _ s hf
    rw [e] at h4 hk
    exact ⟨e, e ▸ completed_body i s, rfl, rfl, h4, hk⟩

/-- `STATUS` after a failed command: `DONE` and `ERR`. -/
theorem status_failed {w ws e s t} (h : Failed w ws e s t) : statusWord t = 0x00000006 := by
  have h1 : t.res.matched = false := h.clean .matched (by simp)
  have h2 : t.res.wrap = false := h.clean .wrap (by simp)
  rw [statusWord_completed h.completed, h.errFlag, h1, h2]; rfl

/-- `STATUS` after a successful command without a match or a wrap: `DONE`. -/
theorem status_ok {w s t} (h : Succeeded w s t) (h1 : t.res.matched = false) (h2 : t.res.wrap = false) :
    statusWord t = 0x00000002 := by
  rw [statusWord_completed h.completed, h.errFlag, h1, h2]; rfl

/-- `exec` of a command whose checks raise an error. -/
theorem raised_next {i : Instr} {s : State} {k : ErrKind} {info : Word}
    (h : bodyOf i (startCommand i s) = .raised k info (startCommand i s)) :
    ∃ t, exec i s = .next t ∧ Failed (encode i) (writeSet i) (errWord k info) s t ∧ statusWord t = 0x00000006 ∧
      t.free.time = s.free.time := by
  obtain ⟨e, hf⟩ := runBody_raised h
  exact ⟨_, (exec_eq i s).trans (congrArg _ e), hf, status_failed hf, rfl⟩

/-- `ENC_HI` of an encoded counter (10_state.md R30). -/
theorem encHi_be64 (c : Dword) : fromBe32 (be64 c)[0] (be64 c)[1] (be64 c)[2] (be64 c)[3] = c.extractLsb' 32 32 := by
  show (c.extractLsb' 56 8 ++ c.extractLsb' 48 8 ++ c.extractLsb' 40 8 ++ c.extractLsb' 32 8 : Word) = c.extractLsb' 32 32
  apply BitVec.eq_of_toNat_eq
  simp only [BitVec.toNat_append, BitVec.extractLsb'_toNat, Nat.shiftRight_eq_div_pow]
  have := c.isLt
  rw [← Nat.shiftLeft_add_eq_or_of_lt (by omega), ← Nat.shiftLeft_add_eq_or_of_lt (by omega), ← Nat.shiftLeft_add_eq_or_of_lt (by omega)]
  simp only [Nat.shiftLeft_eq]; omega

/-- `ENC_LO` of an encoded counter (10_state.md R30). -/
theorem encLo_be64 (c : Dword) : fromBe32 (be64 c)[4] (be64 c)[5] (be64 c)[6] (be64 c)[7] = c.extractLsb' 0 32 := by
  show (c.extractLsb' 24 8 ++ c.extractLsb' 16 8 ++ c.extractLsb' 8 8 ++ c.extractLsb' 0 8 : Word) = c.extractLsb' 0 32
  apply BitVec.eq_of_toNat_eq
  simp only [BitVec.toNat_append, BitVec.extractLsb'_toNat, Nat.shiftRight_eq_div_pow]
  have := c.isLt
  rw [← Nat.shiftLeft_add_eq_or_of_lt (by omega), ← Nat.shiftLeft_add_eq_or_of_lt (by omega), ← Nat.shiftLeft_add_eq_or_of_lt (by omega)]
  simp only [Nat.shiftLeft_eq]; omega

/-- Something is missing. -/
theorem checked_miss {miss bad f} {s : State} (h : miss ≠ 0) : checked miss bad f s = .raised .missingParameter miss s := if_pos h

/-- Nothing is missing and something is invalid. -/
theorem checked_bad {miss bad f} {s : State} (h : miss = 0) (h' : bad ≠ 0) : checked miss bad f s = .raised .invalidParameter bad s :=
  (if_neg (not_not.mpr h)).trans (if_pos h')

/-- The checks pass. -/
theorem checked_ok {miss bad f} {s : State} (h : miss = 0) (h' : bad = 0) : checked miss bad f s = f s :=
  (if_neg (not_not.mpr h)).trans (if_neg (not_not.mpr h'))

/-- `HotpReady`: nothing is missing. -/
theorem hotp_miss_zero {s : State} (h : HotpReady s) : hotpMiss s.params s.ops = 0 := by
  have h1 : (s.ops.key.length == 0) = false := by simp [h.key]
  have h2 : (s.params.zeroCounterMissing && s.ops.counter == 0) = false := by
    cases hq : s.params.zeroCounterMissing
    · rfl
    · have := h.quirk hq; simpa using this
  simp only [hotpMiss, h1, h2, h.counter]; decide

/-- `HotpReady`: nothing is invalid. -/
theorem hotp_bad_zero {s : State} (h : HotpReady s) : hotpBad s.params s.ops = 0 := by
  have := h.codeLen
  have h3 : decide (s.ops.codeLen.toNat > s.params.codeMax) = false := by simp; omega
  simp only [hotpBad, h.keyOvf, h3]; decide

/-- `VerifyReady`: nothing is missing. -/
theorem verify_miss_zero {s : State} (h : VerifyReady s) : verifyMiss s.ops = 0 := by
  have h1 : (s.ops.key.length == 0) = false := by simp [h.key]
  have h2 : (s.ops.token.length == 0) = false := by simp [h.token]
  simp only [verifyMiss, h1, h2]; decide

/-- `VerifyReady`: nothing is invalid. -/
theorem verify_bad_zero {s : State} (h : VerifyReady s) : verifyBad s.ops = 0 := by
  have h1 : (s.ops.step == 0) = false := by simpa using h.step
  simp only [verifyBad, h1, h.keyOvf, h.tokOvf]; decide

/-- `HOTP` whose checks pass. -/
theorem hotp_next {s : State} (h : HotpReady s) : ∃ t, exec .hotp s = .next t ∧ Succeeded 0x00000003 s t ∧
   t = complete { startCommand .hotp s with res := (startCommand .hotp s).res.storeHotp (hotpFn s.ops.key s.ops.counter s.ops.codeLen.toNat) } := by
  have : bodyOf .hotp (startCommand .hotp s) = hotpCompute (startCommand .hotp s) :=
    checked_ok (miss := hotpMiss s.params s.ops) (bad := hotpBad s.params s.ops) (hotp_miss_zero h) (hotp_bad_zero h)
  obtain ⟨e, hs⟩ := runBody_finished (i := .hotp) (s := s) this
  exact ⟨_, (exec_eq .hotp s).trans (congrArg _ e), hs, rfl⟩

/-- The body of `VERIFY` whose checks pass: its scan from the operands of the accepted command. -/
theorem verify_body {s : State} (h : VerifyReady s) : bodyOf .verify (startCommand .verify s) =
    scanResult (verifyScan (usedTime s) s) (latchTime (usedTime s) (sampleTime (startCommand .verify s))) := by
  refine (checked_ok (verify_miss_zero h) (verify_bad_zero h)).trans ?_
  simp only [verifyCompute, verifyAt, verifyScan, sampleTime_ops, sampleTime_params, startCommand_ops, startCommand_params, usedTime_startCommand]

end Sys2Proof.Machine
end

