-- ==== Sys2Proof/Laws/Decode.lean ====
section
/-! SUPPORT. Laws/Decode.lean: the command word by its two fields, and what the decoder answers. -/

namespace Sys2Proof.Machine

open Sys2Proof

/-- A command word is `RSV` then `OPC` (30_encoding.md R90). -/
theorem fields_toNat (w : Word) : w.toNat = (rsvField w).toNat * 256 + (opcField w).toNat := by
  simp only [rsvField, opcField, BitVec.extractLsb'_toNat]; have := w.isLt
  simp only [Nat.shiftRight_eq_div_pow]; omega

/-- The decoder answers a command on its own word alone (30_encoding.md R93). -/
theorem decode_ok_iff (w : Word) (i : Instr) : decode w = .ok i ↔ w = encode i := by
  constructor
  · intro h
    unfold decode at h
    split at h
    · cases h
    · rename_i hr
      rw [not_not] at hr
      apply BitVec.eq_of_toNat_eq
      rw [fields_toNat, hr]
      generalize (opcField w).toNat = n at h
      unfold opcodeInstr at h
      split at h
      · rename_i e; split at e <;> first | (cases e; cases h; rfl) | cases e
      · cases h
  · rintro rfl; cases i <;> decide

end Sys2Proof.Machine
end

