-- ==== Sys2Proof/Laws/Hotp.lean ====
section
/-! SUPPORT. Laws/Hotp.lean: the decimal string of 42_hotp.md R164 and the counter encoding, by their lengths, bytes and values. -/

namespace Sys2Proof.Machine

open Sys2Proof

theorem digitCount_le (v : Nat) : digitCount v ≤ 6 := by unfold digitCount; split_ifs <;> omega

theorem digitCount_pos (v : Nat) : 1 ≤ digitCount v := by unfold digitCount; split_ifs <;> omega

theorem decimal_length (v : Nat) : (decimal v).length = digitCount v := by simp [decimal]

theorem digit_toNat (d : Nat) : (BitVec.ofNat 8 (0x30 + d % 10)).toNat = 0x30 + d % 10 := by
  rw [BitVec.toNat_ofNat]; omega

theorem render_length (v n : Nat) : (render v n).length = max n (digitCount v) := by
  unfold render
  split <;> simp [decimal_length] <;> omega

theorem isDigit_ofNat (d : Nat) : isDigit (BitVec.ofNat 8 (0x30 + d % 10)) = true := by
  simp only [isDigit, digit_toNat]
  simp; omega

theorem decimal_digits (v : Nat) : ∀ b ∈ decimal v, isDigit b = true := by
  intro b hb
  simp only [decimal, List.mem_map] at hb
  obtain ⟨j, -, rfl⟩ := hb
  exact isDigit_ofNat _

theorem render_digits (v n : Nat) : ∀ b ∈ render v n, isDigit b = true := by
  intro b hb
  unfold render at hb
  split at hb
  · rcases List.mem_append.mp hb with h | h
    · rw [(List.mem_replicate.mp h).2]; decide
    · exact decimal_digits v b h
  · exact decimal_digits v b hb

theorem digitsValue_replicate (n : Nat) :
    (List.replicate n (0x30 : Byte)).foldl (fun acc b => 10 * acc + (b.toNat - 0x30)) 0 = 0 := by
  induction n with
  | zero => rfl
  | succ n ih => rw [List.replicate_succ, List.foldl_cons]; simpa using ih

theorem decimal_value (v : Nat) (h : v ≤ 999999) :
    (decimal v).foldl (fun acc b => 10 * acc + (b.toNat - 0x30)) 0 = v := by
  have key : ∀ g, v < 10 ^ g → ∀ j ≤ g,
      ((List.range j).map fun j => BitVec.ofNat 8 (0x30 + v / 10 ^ (g - 1 - j) % 10)).foldl
        (fun acc b => 10 * acc + (b.toNat - 0x30)) 0 = v / 10 ^ (g - j) := by
    intro g hg j
    induction j with
    | zero => intro _; simp [Nat.div_eq_of_lt hg]
    | succ j ih =>
      intro hj
      rw [List.range_succ, List.map_append, List.foldl_append, ih (by omega)]
      simp only [List.map_cons, List.map_nil, List.foldl_cons, List.foldl_nil, digit_toNat]
      have e : g - j = (g - 1 - j) + 1 := by omega
      rw [e, Nat.pow_succ, ← Nat.div_div_eq_div_mul, show g - (j + 1) = g - 1 - j by omega]
      omega
  have hb : v < 10 ^ digitCount v := by unfold digitCount; split_ifs <;> omega
  have := key (digitCount v) hb (digitCount v) (Nat.le_refl _)
  simpa [decimal] using this

theorem be64_getElem (c : Dword) (j : Fin 8) : (be64 c)[j] = c.extractLsb' (8 * (7 - j.val)) 8 := by
  fin_cases j <;> rfl

/-- `CODEVAL` of a truncated value fits its 20 bits (42_hotp.md R163). -/
theorem codeValue_toNat (t : BitVec 31) : (codeValue t).toNat = t.toNat % 1000000 := by
  rw [codeValue, codeModulus, BitVec.toNat_ofNat, Nat.mod_eq_of_lt]; omega

/-- The code of `HOTP_FN` renders its value (42_hotp.md R165). -/
theorem hotpFn_code (key : Bytes) (c : Dword) (n : Nat) : (hotpFn key c n).code = render (hotpFn key c n).codeVal.toNat n := rfl

/-- The value of `HOTP_FN` is its truncated value reduced (42_hotp.md R165). -/
theorem hotpFn_codeVal (key : Bytes) (c : Dword) (n : Nat) : (hotpFn key c n).codeVal = codeValue (hotpFn key c n).trunc := rfl

end Sys2Proof.Machine
end

