-- ==== Sys2Proof/Laws/Totp.lean ====
section
/-! SUPPORT. Laws/Totp.lean: the window counters on numbers, and the scan of `VERIFY`: what one iteration does, what a run of
unsuccessful iterations does, and every way the scan can end. -/

namespace Sys2Proof.Machine

open Sys2Proof

/-- `WINDOW` on numbers (43_totp_verify.md R183). -/
theorem window_toNat (t : Dword) (a : Word) (k : Nat) :
    (window t a k).toNat = (t.toNat + (2 ^ 64 - a.toNat) + k) % 2 ^ 64 := by
  have := a.isLt; have := t.isLt
  simp only [window, BitVec.toNat_add, BitVec.toNat_sub, BitVec.toNat_setWidth, BitVec.toNat_ofNat]
  omega

theorem equalStrings_iff (x y : Bytes) : equalStrings x y = true ↔ x = y := by simp [equalStrings]

/-- The quirk does not stop the scan at window index `j` (43_totp_verify.md R188). -/
def CounterAllowed (quirk : Bool) (t : Dword) (a : Word) (j : Nat) : Prop := quirk = true → window t a j ≠ 0

/-- The scan goes on past window index `j`. -/
def Passes (quirk : Bool) (key token : Bytes) (t : Dword) (a : Word) (j : Nat) : Prop :=
  CounterAllowed quirk t a j ∧ (hotpFn key (window t a j) token.length).code ≠ token

section Scan
variable {quirk : Bool} {key token : Bytes} {t : Dword} {a : Word}

theorem quirk_test_false {k : Nat} (h : CounterAllowed quirk t a k) : ¬ (quirk && window t a k == 0) = true := by
  intro e
  rw [Bool.and_eq_true, beq_iff_eq] at e
  exact h e.1 e.2

theorem scanFrom_zeroCounter (left : Nat) {k : Nat} (hq : quirk = true) (h : window t a k = 0) :
    scanFrom quirk key token t a left k = .zeroCounter k := by
  rw [scanFrom]; exact if_pos (by rw [hq, h]; rfl)

theorem scanFrom_found (left : Nat) {k : Nat} (h : CounterAllowed quirk t a k)
    (hm : (hotpFn key (window t a k) token.length).code = token) :
    scanFrom quirk key token t a left k = .found (hotpFn key (window t a k) token.length) k := by
  rw [scanFrom]
  exact (if_neg (quirk_test_false h)).trans (if_pos ((equalStrings_iff _ _).mpr hm))

theorem scanFrom_last {k : Nat} (h : Passes quirk key token t a k) :
    scanFrom quirk key token t a 0 k = .exhausted (hotpFn key (window t a k) token.length) k := by
  rw [scanFrom]
  exact (if_neg (quirk_test_false h.1)).trans (if_neg (mt (equalStrings_iff _ _).mp h.2))

theorem scanFrom_skip {left k : Nat} (h : Passes quirk key token t a k) :
    scanFrom quirk key token t a (left + 1) k = scanFrom quirk key token t a left (k + 1) := by
  rw [scanFrom]
  exact (if_neg (quirk_test_false h.1)).trans (if_neg (mt (equalStrings_iff _ _).mp h.2))

theorem scanFrom_run (n : Nat) {left k : Nat} (h : ∀ j, k ≤ j → j < k + n → Passes quirk key token t a j) :
    scanFrom quirk key token t a (left + n) k = scanFrom quirk key token t a left (k + n) := by
  induction n generalizing k with
  | zero => rfl
  | succ n ih =>
    rw [← Nat.add_assoc, scanFrom_skip (h k (Nat.le_refl _) (by omega)), ih (fun j h1 h2 => h j (by omega) (by omega))]
    congr 1; omega

/-- A scan whose first `k` indexes pass reaches index `k`. -/
theorem scan_run {k : Nat} (hk : k ≤ 2 * a.toNat) (hb : ∀ j < k, Passes quirk key token t a j) :
    scan quirk key token t a = scanFrom quirk key token t a (2 * a.toNat - k) k := by
  have e := scanFrom_run (left := 2 * a.toNat - k) (k := 0) k (fun j _ h => hb j (by omega))
  rwa [Nat.sub_add_cancel hk, Nat.zero_add] at e

/-- Every way the scan can end. -/
theorem scanFrom_cases (left k : Nat) :
    (∃ j, k ≤ j ∧ j ≤ k + left ∧ (hotpFn key (window t a j) token.length).code = token ∧
      scanFrom quirk key token t a left k = .found (hotpFn key (window t a j) token.length) j) ∨
    scanFrom quirk key token t a left k = .exhausted (hotpFn key (window t a (k + left)) token.length) (k + left) ∨
    (quirk = true ∧ ∃ j, scanFrom quirk key token t a left k = .zeroCounter j) := by
  induction left generalizing k with
  | zero =>
    by_cases hz : CounterAllowed quirk t a k
    · by_cases hm : (hotpFn key (window t a k) token.length).code = token
      · exact .inl ⟨k, Nat.le_refl k, Nat.le_refl k, hm, scanFrom_found 0 hz hm⟩
      · exact .inr (.inl (scanFrom_last ⟨hz, hm⟩))
    · simp only [CounterAllowed, Classical.not_imp, not_not] at hz
      exact .inr (.inr ⟨hz.1, k, scanFrom_zeroCounter 0 hz.1 hz.2⟩)
  | succ left ih =>
    by_cases hz : CounterAllowed quirk t a k
    · by_cases hm : (hotpFn key (window t a k) token.length).code = token
      · exact .inl ⟨k, Nat.le_refl k, by omega, hm, scanFrom_found _ hz hm⟩
      · rw [scanFrom_skip ⟨hz, hm⟩, show k + (left + 1) = k + 1 + left by omega]
        rcases ih (k + 1) with ⟨j, h1, h2, h3, e⟩ | h | h
        · exact .inl ⟨j, by omega, h2, h3, e⟩
        · exact .inr (.inl h)
        · exact .inr (.inr h)
    · simp only [CounterAllowed, Classical.not_imp, not_not] at hz
      exact .inr (.inr ⟨hz.1, k, scanFrom_zeroCounter _ hz.1 hz.2⟩)
end Scan

end Sys2Proof.Machine
end

