-- ==== Sys2Proof/Laws/Invariant.lean ====
section
/-! SUPPORT. Laws/Invariant.lean: what every body keeps of the result bank and of the shape of `ERR`, and two states apart in
their secrets. -/

namespace Sys2Proof.Machine

open Sys2Proof

/-- `ERR = 0` has the shape of `ERR`. -/
theorem errShape_zero : ErrShape 0 := by constructor <;> decide

/-- Every value any command writes to `ERR` has its shape (60_exceptions.md R211, R212, R216). -/
theorem shape_err (e : Word) (he : e ∈ [0x101#32, 0x201#32, 0x301#32, 0x401#32, 0x501#32, 0x10002#32,0x20002#32,0x30002#32,0x40002#32,0x50002#32,0x60002#32,0x70002#32,0x80002#32,0x90002#32, 3#32]) :
    ErrShape e ∧ errCode e ≠ 0 := by
  simp only [List.mem_cons, List.not_mem_nil, or_false] at he
  rcases he with rfl | rfl | rfl | rfl | rfl | rfl | rfl | rfl | rfl | rfl | rfl | rfl | rfl | rfl | rfl <;>
    exact ⟨by constructor <;> decide, by decide⟩

/-- What holds of a result bank: the code fits, holds digits and renders `CODEVAL`, which is `TRUNC` reduced. -/
structure ResInv (cm : Nat) (r : ResultBank) : Prop where
  codeFits : r.code.length ≤ cm
  codeDigits : ∀ b ∈ r.code, isDigit b = true
  codeValReduced : r.codeVal.toNat = r.trunc.toNat % 1000000
  codeRendered : r.code = [] ∨ (∃ n, r.code = render r.codeVal.toNat n)

/-- The cleared result bank. -/
theorem resInv_cleared (cm) : ResInv cm ResultBank.cleared where
  codeFits := Nat.zero_le _
  codeDigits := by intro b h; cases h
  codeValReduced := by decide
  codeRendered := .inl rfl

/-- The result bank after one `HOTP_FN`. -/
theorem resInv_store (cm) (r : ResultBank) (k c n) (hn : n ≤ cm) (h6 : 6 ≤ cm) : ResInv cm (r.storeHotp (hotpFn k c n)) := by
  have hl := render_length (hotpFn k c n).codeVal.toNat n
  have hd := digitCount_le (hotpFn k c n).codeVal.toNat
  constructor
  · rw [storeHotp_code, hotpFn_code, hl]; omega
  · rw [storeHotp_code, hotpFn_code]; exact render_digits _ _
  · rw [storeHotp_codeVal, storeHotp_trunc, hotpFn_codeVal]; exact codeValue_toNat _
  · exact .inr ⟨n, rfl⟩

/-- A write set cleared. -/
theorem clearSet_inv (i : Instr) (cm) {r : ResultBank} (h : ResInv cm r) : ResInv cm (r.clearSet (writeSet i)) := by
  cases i
  · exact ⟨h.1, h.2, h.3, h.4⟩
  · exact ⟨h.1, h.2, h.3, h.4⟩
  · exact ⟨(resInv_cleared cm).1, (resInv_cleared cm).2, (resInv_cleared cm).3, (resInv_cleared cm).4⟩
  · rw [clearSet_verify]; exact resInv_cleared cm
  · rw [clearSet_clear]; exact resInv_cleared cm

/-- How the body of a command can end, for a code buffer of `cm` bytes. -/
def EndInv (i : Instr) (cm : Nat) : CmdEnd → Prop
  | .finished t => ResInv cm t.res ∧ (t.res.matched = true → i = .verify)
  | .raised k info t => (ErrShape (errWord k info) ∧ errCode (errWord k info) ≠ 0) ∧ ResInv cm t.res ∧ t.res.matched = false

/-- The gathered checks keep `EndInv`. -/
theorem checked_inv {i cm miss bad f} {s : State} (h0 : ResInv cm s.res) (hm : s.res.matched = false)
   (h1 : miss ≠ 0 → (ErrShape (errWord .missingParameter miss) ∧ errCode (errWord .missingParameter miss) ≠ 0))
   (h2 : bad ≠ 0 → (ErrShape (errWord .invalidParameter bad) ∧ errCode (errWord .invalidParameter bad) ≠ 0))
   (h3 : miss = 0 → bad = 0 → EndInv i cm (f s)) : EndInv i cm (checked miss bad f s) := by
  obtain ⟨a, e⟩ | ⟨-, a, e⟩ | ⟨a, b, e⟩ := checked_cases miss bad f s <;> rw [e]
  · exact ⟨h1 a, h0, hm⟩
  · exact ⟨h2 a, h0, hm⟩
  · exact h3 a b

/-- `MATCH` is 0 when the body starts. -/
theorem startCommand_matched (i : Instr) (s : State) : (startCommand i s).res.matched = false := by cases i <;> rfl

/-- A code length that passes the checks of `HOTP` fits. -/
theorem hotp_lens {p : Params} {o : OperandBank} (h : hotpBad p o = 0) : o.codeLen.toNat ≤ p.codeMax := by
  by_contra hc
  have : decide (o.codeLen.toNat > p.codeMax) = true := by simp; omega
  rw [hotpBad, this] at h
  revert h; cases o.keyOvf <;> decide

/-- The body of every command. -/
theorem body_inv (i : Instr) (s : State) (hp : 6 ≤ s.params.codeMax) (ht : s.ops.token.length ≤ s.params.codeMax) (h : ResInv s.params.codeMax s.res) (hm : s.res.matched = false) :
   EndInv i s.params.codeMax (bodyOf i s) := by
  cases i
  · refine ⟨⟨h.1, h.2, h.3, h.4⟩, ?_⟩
    simp [hm]
  · apply checked_inv h hm
    · intro hx; apply shape_err; revert hx; unfold hmacMiss; cases (s.ops.key.length == 0) <;> decide
    · intro hx; apply shape_err; revert hx; unfold hmacBad; cases s.ops.keyOvf <;> decide
    · intro _ _
      refine ⟨⟨h.1, h.2, h.3, h.4⟩, ?_⟩
      simp [hm]
  · apply checked_inv h hm
    · intro hx; apply shape_err; revert hx; unfold hotpMiss
      cases (s.ops.key.length == 0) <;> cases s.ops.cntValid <;> cases (s.params.zeroCounterMissing && s.ops.counter == 0) <;> decide
    · intro hx; apply shape_err; revert hx; unfold hotpBad
      cases s.ops.keyOvf <;> cases (decide (s.ops.codeLen.toNat > s.params.codeMax)) <;> decide
    · intro _ hb
      refine ⟨resInv_store _ _ _ _ _ (hotp_lens hb) hp, ?_⟩
      simp [hm]
  · apply checked_inv h hm
    · intro hx; apply shape_err; revert hx; unfold verifyMiss
      cases (s.ops.key.length == 0) <;> cases (s.ops.token.length == 0) <;> decide
    · intro hx; apply shape_err; revert hx; unfold verifyBad
      cases s.ops.keyOvf <;> cases s.ops.tokOvf <;> cases (s.ops.step == 0) <;> decide
    · intro _ _
      unfold verifyCompute verifyAt verifyScan scan
      simp only [sampleTime_ops, sampleTime_params]
      rcases scanFrom_cases (quirk := s.params.zeroCounterMissing) (key := s.ops.key) (token := s.ops.token) (t := tstepFn (usedTime s) s.ops.step) (a := s.ops.allow) (2 * s.ops.allow.toNat) 0 with ⟨j, -, -, -, e⟩ | e | ⟨-, j, e⟩ <;> rw [e]
      · have := resInv_store s.params.codeMax s.res s.ops.key (window (tstepFn (usedTime s) s.ops.step) s.ops.allow j) _ ht hp
        exact ⟨⟨this.1, this.2, this.3, this.4⟩, fun _ => rfl⟩
      · have := resInv_store s.params.codeMax s.res s.ops.key (window (tstepFn (usedTime s) s.ops.step) s.ops.allow (0 + 2 * s.ops.allow.toNat)) _ ht hp
        exact ⟨⟨this.1, this.2, this.3, this.4⟩, fun _ => rfl⟩
      · refine ⟨shape_err _ (by decide), ?_, ?_⟩
        · simp only [latchTime_res, sampleTime_res]; exact ⟨h.1, h.2, h.3, h.4⟩
        · simp [hm]
  · refine ⟨h, ?_⟩
    simp [hm]

/-- How the body of a command can end, with no assumption on the state: who sets `MATCH`, and the error it raises. -/
def EndShape (i : Instr) : CmdEnd → Prop
  | .finished t => t.res.matched = true → i = .verify
  | .raised k info _ => ErrShape (errWord k info) ∧ errCode (errWord k info) ≠ 0

/-- The gathered checks keep `EndShape`. -/
theorem checked_shape {i miss bad f} {s : State}
   (h1 : miss ≠ 0 → (ErrShape (errWord .missingParameter miss) ∧ errCode (errWord .missingParameter miss) ≠ 0))
   (h2 : bad ≠ 0 → (ErrShape (errWord .invalidParameter bad) ∧ errCode (errWord .invalidParameter bad) ≠ 0))
   (h3 : EndShape i (f s)) : EndShape i (checked miss bad f s) := by
  obtain ⟨a, e⟩ | ⟨-, a, e⟩ | ⟨a, b, e⟩ := checked_cases miss bad f s <;> rw [e]
  · exact h1 a
  · exact h2 a
  · exact h3

/-- The body of every command, from any state whose `MATCH` is 0. -/
theorem body_shape (i : Instr) (s : State) (hm : s.res.matched = false) : EndShape i (bodyOf i s) := by
  cases i
  · intro h; simp [hm] at h
  · apply checked_shape
    · intro hx; apply shape_err; revert hx; unfold hmacMiss; cases (s.ops.key.length == 0) <;> decide
    · intro hx; apply shape_err; revert hx; unfold hmacBad; cases s.ops.keyOvf <;> decide
    · intro h; simp [hm] at h
  · apply checked_shape
    · intro hx; apply shape_err; revert hx; unfold hotpMiss
      cases (s.ops.key.length == 0) <;> cases s.ops.cntValid <;> cases (s.params.zeroCounterMissing && s.ops.counter == 0) <;> decide
    · intro hx; apply shape_err; revert hx; unfold hotpBad
      cases s.ops.keyOvf <;> cases (decide (s.ops.codeLen.toNat > s.params.codeMax)) <;> decide
    · intro h; simp [hm] at h
  · apply checked_shape
    · intro hx; apply shape_err; revert hx; unfold verifyMiss
      cases (s.ops.key.length == 0) <;> cases (s.ops.token.length == 0) <;> decide
    · intro hx; apply shape_err; revert hx; unfold verifyBad
      cases s.ops.keyOvf <;> cases s.ops.tokOvf <;> cases (s.ops.step == 0) <;> decide
    · unfold verifyCompute verifyAt
      generalize verifyScan _ _ = e
      cases e
      · exact fun _ => rfl
      · exact fun _ => rfl
      · exact shape_err _ (by decide)
  · intro h; change s.res.matched = true at h; rw [hm] at h; cases h

/-- The second of two states apart in their secrets, by the first. -/
theorem secretsApart_fields {s s' : State} (h : SecretsApart s s') : s' = { s with ops := { s.ops with key := s'.ops.key, token := s'.ops.token } } := by
  obtain ⟨a1, a2, a3, a4, a5, a6, a7, a8, a9, a10⟩ := s
  obtain ⟨b1, b2, b3, b4, b5, b6, b7, b8, b9, b10⟩ := s'
  have := h.same
  cases a2; cases b2
  simp only [State.mk.injEq, OperandBank.mk.injEq] at this ⊢
  simp [this]

/-- A push into two buffers of one length. -/
theorem push_len (cap b) {k k' : Bytes} (ovf) (h : k.length = k'.length) :
   (pushByte cap b k ovf).1.length = (pushByte cap b k' ovf).1.length ∧ (pushByte cap b k ovf).2 = (pushByte cap b k' ovf).2 := by
  unfold pushByte; rw [h]; split <;> simp [h]

/-- Bits 7:0 of a word cut to its low byte. -/
theorem low8 (v : Word) : (v &&& 0x000000FF).extractLsb' 0 8 = v.extractLsb' 0 8 := by
  ext i hi; simp; interval_cases i <;> simp

end Sys2Proof.Machine
end

