-- ==== Sys2Proof/Laws/Operands.lean ====
section
/-! SUPPORT. Laws/Operands.lean: the byte buffers keep their capacity, the halves of a register pair, and the flag words of the
checks. -/

namespace Sys2Proof.Machine

open Sys2Proof

/-- What a push does: it appends below the capacity, and at the capacity it drops the byte and flags it. -/
theorem pushByte_cases (cap : Nat) (b : Byte) (buf : Bytes) (ovf : Bool) :
    (buf.length < cap ∧ pushByte cap b buf ovf = (buf ++ [b], ovf)) ∨
    (cap ≤ buf.length ∧ pushByte cap b buf ovf = (buf, true)) := by
  by_cases h : buf.length < cap
  · exact .inl ⟨h, if_pos h⟩
  · exact .inr ⟨Nat.le_of_not_lt h, if_neg h⟩

/-- A push keeps a buffer inside its capacity. -/
theorem pushByte_fits {cap : Nat} {b : Byte} {buf : Bytes} {ovf : Bool} (h : buf.length ≤ cap) :
    (pushByte cap b buf ovf).1.length ≤ cap := by
  rcases pushByte_cases cap b buf ovf with ⟨h', e⟩ | ⟨h', e⟩ <;> rw [e]
  · simpa using h'
  · exact h

/-- The overflow flag stands only on a full buffer. -/
theorem pushByte_full {cap : Nat} {b : Byte} {buf : Bytes} {ovf : Bool} (h : buf.length ≤ cap)
    (hf : ovf = true → buf.length = cap) : (pushByte cap b buf ovf).2 = true → (pushByte cap b buf ovf).1.length = cap := by
  rcases pushByte_cases cap b buf ovf with ⟨h', e⟩ | ⟨h', e⟩ <;> rw [e]
  · intro ho; exact absurd (hf ho) (by omega)
  · intro _; exact Nat.le_antisymm h h'

@[simp] theorem loHalf_joinHalves (hi lo : Word) : loHalf (joinHalves hi lo) = lo := by
  apply BitVec.eq_of_toNat_eq
  have := hi.isLt; have := lo.isLt
  simp only [loHalf, joinHalves, BitVec.toNat_append, BitVec.extractLsb'_toNat, Nat.shiftRight_zero]
  rw [← Nat.shiftLeft_add_eq_or_of_lt lo.isLt, Nat.shiftLeft_eq]; omega

@[simp] theorem hiHalf_joinHalves (hi lo : Word) : hiHalf (joinHalves hi lo) = hi := by
  apply BitVec.eq_of_toNat_eq
  have := hi.isLt; have := lo.isLt
  simp only [hiHalf, joinHalves, BitVec.toNat_append, BitVec.extractLsb'_toNat]
  rw [← Nat.shiftLeft_add_eq_or_of_lt lo.isLt, Nat.shiftLeft_eq, Nat.shiftRight_eq_div_pow]; omega

/-- A flag stands at its bit and nowhere else. -/
theorem flagBit_getLsbD (b : Bool) (n i : Nat) (hn : n < 32) : (flagBit b n).getLsbD i = (b && decide (i = n)) := by
  unfold flagBit
  cases b
  · simp
  · simp only [if_true, Bool.true_and]
    rw [BitVec.getLsbD_ofNat, Nat.testBit_two_pow]
    by_cases h : i = n
    · subst h; simp [hn]
    · have : ¬ n = i := fun e => h e.symm
      simp [h, this]

/-- The number of four bytes, most significant first. -/
theorem fromBe32_toNat (a b c d : Byte) :
    (fromBe32 a b c d).toNat = a.toNat * 2 ^ 24 + b.toNat * 2 ^ 16 + c.toNat * 2 ^ 8 + d.toNat := by
  have := a.isLt; have := b.isLt; have := c.isLt; have := d.isLt
  simp only [fromBe32, BitVec.toNat_append]
  rw [← Nat.shiftLeft_add_eq_or_of_lt (by omega), ← Nat.shiftLeft_add_eq_or_of_lt (by omega),
    ← Nat.shiftLeft_add_eq_or_of_lt (by omega)]
  simp only [Nat.shiftLeft_eq]; omega

end Sys2Proof.Machine
end

