-- ==== Sys2Proof/Laws/PerInstr.lean ====
section
/-! SUPPORT. Laws/PerInstr.lean: the families of statements made for each constructor of Instr (LAWS.json). -/

namespace Sys2Proof.Laws

open Sys2Proof

/-- Family RoundTrip: the word of a command is legal and decodes to it (30_encoding.md R93). -/
def RoundTrip.Statement (i : Instr) : Prop := Word.isLegalCommand (encode i) = true ∧ decode (encode i) = .ok i

theorem RoundTrip.encode : RoundTrip.Statement .encode := ⟨by decide, by decide⟩
theorem RoundTrip.hmac : RoundTrip.Statement .hmac := ⟨by decide, by decide⟩
theorem RoundTrip.hotp : RoundTrip.Statement .hotp := ⟨by decide, by decide⟩
theorem RoundTrip.verify : RoundTrip.Statement .verify := ⟨by decide, by decide⟩
theorem RoundTrip.clear : RoundTrip.Statement .clear := ⟨by decide, by decide⟩

end Sys2Proof.Laws
end

