-- ==== Sys2Proof/Laws/Port.lean ====
section
/-! SUPPORT. Laws/Port.lean: the address map register by register, and every case of a port write, of an idle and a busy port
slot, and of a step, each said once. -/

namespace Sys2Proof.Machine

open Sys2Proof

theorem regAt_low (codeMax : Nat) {word : BitVec 7} (h : ¬ 64 ≤ word.toNat) :
    regAt codeMax word = namedRegs.find? (fun r => r.byteOffset == 4 * word.toNat) := by
  rw [regAt, dif_neg h]

@[simp] theorem regAt_cmd (n : Nat) : regAt n Reg.cmd.word = some .cmd := by rw [regAt_low n (by decide)]; decide
@[simp] theorem regAt_status (n : Nat) : regAt n Reg.status.word = some .status := by rw [regAt_low n (by decide)]; decide
@[simp] theorem regAt_counterLo (n : Nat) : regAt n Reg.counterLo.word = some .counterLo := by
  rw [regAt_low n (by decide)]; decide
@[simp] theorem regAt_counterHi (n : Nat) : regAt n Reg.counterHi.word = some .counterHi := by
  rw [regAt_low n (by decide)]; decide
@[simp] theorem regAt_codeLen (n : Nat) : regAt n Reg.codeLen.word = some .codeLen := by rw [regAt_low n (by decide)]; decide
@[simp] theorem regAt_step (n : Nat) : regAt n Reg.step.word = some .step := by rw [regAt_low n (by decide)]; decide
@[simp] theorem regAt_allow (n : Nat) : regAt n Reg.allow.word = some .allow := by rw [regAt_low n (by decide)]; decide
@[simp] theorem regAt_nowLo (n : Nat) : regAt n Reg.nowLo.word = some .nowLo := by rw [regAt_low n (by decide)]; decide
@[simp] theorem regAt_nowHi (n : Nat) : regAt n Reg.nowHi.word = some .nowHi := by rw [regAt_low n (by decide)]; decide
@[simp] theorem regAt_keyPush (n : Nat) : regAt n Reg.keyPush.word = some .keyPush := by rw [regAt_low n (by decide)]; decide
@[simp] theorem regAt_tokenPush (n : Nat) : regAt n Reg.tokenPush.word = some .tokenPush := by
  rw [regAt_low n (by decide)]; decide

@[simp] theorem regAt_err (n : Nat) : regAt n Reg.err.word = some .err := by
  rw [regAt_low n (by decide)]; decide
@[simp] theorem regAt_lastCmd (n : Nat) : regAt n Reg.lastCmd.word = some .lastCmd := by
  rw [regAt_low n (by decide)]; decide
@[simp] theorem regAt_keyLen (n : Nat) : regAt n Reg.keyLen.word = some .keyLen := by
  rw [regAt_low n (by decide)]; decide
@[simp] theorem regAt_tokenLen (n : Nat) : regAt n Reg.tokenLen.word = some .tokenLen := by
  rw [regAt_low n (by decide)]; decide
@[simp] theorem regAt_encHi (n : Nat) : regAt n Reg.encHi.word = some .encHi := by
  rw [regAt_low n (by decide)]; decide
@[simp] theorem regAt_encLo (n : Nat) : regAt n Reg.encLo.word = some .encLo := by
  rw [regAt_low n (by decide)]; decide
@[simp] theorem regAt_offset (n : Nat) : regAt n Reg.offset.word = some .offset := by
  rw [regAt_low n (by decide)]; decide
@[simp] theorem regAt_trunc (n : Nat) : regAt n Reg.trunc.word = some .trunc := by
  rw [regAt_low n (by decide)]; decide
@[simp] theorem regAt_codeVal (n : Nat) : regAt n Reg.codeVal.word = some .codeVal := by
  rw [regAt_low n (by decide)]; decide
@[simp] theorem regAt_codeOutLen (n : Nat) : regAt n Reg.codeOutLen.word = some .codeOutLen := by
  rw [regAt_low n (by decide)]; decide
@[simp] theorem regAt_tstepLo (n : Nat) : regAt n Reg.tstepLo.word = some .tstepLo := by
  rw [regAt_low n (by decide)]; decide
@[simp] theorem regAt_tstepHi (n : Nat) : regAt n Reg.tstepHi.word = some .tstepHi := by
  rw [regAt_low n (by decide)]; decide
@[simp] theorem regAt_nowlLo (n : Nat) : regAt n Reg.nowlLo.word = some .nowlLo := by
  rw [regAt_low n (by decide)]; decide
@[simp] theorem regAt_nowlHi (n : Nat) : regAt n Reg.nowlHi.word = some .nowlHi := by
  rw [regAt_low n (by decide)]; decide
@[simp] theorem regAt_digest (n : Nat) (k : Fin 5) : regAt n (Reg.digest k).word = some (.digest k) := by
  rw [regAt_low n (by revert k; decide)]; revert k; decide

/-- What stands at the address of code byte `j`. -/
theorem regAt_code (n j : Nat) (hj : j < 64) :
    regAt n (BitVec.ofNat 7 ((0x100 + 4 * j) / 4)) = if j < n then some (.code ⟨j, hj⟩) else none := by
  have : (BitVec.ofNat 7 ((0x100 + 4 * j) / 4)).toNat = 64 + j := by rw [BitVec.toNat_ofNat]; omega
  unfold regAt
  rw [dif_pos (by omega)]
  simp only [this, Nat.add_sub_cancel_left]

/-- A read of a register of the idle block. -/
theorem portRead_of_regAt {word : BitVec 7} {r : Reg} {s : State} (h : regAt s.params.codeMax word = some r) :
    portRead word s = readReg r s := by
  rw [portRead, h]

theorem and_allOnes32 (v : Word) : v &&& 0xFFFFFFFF = v := BitVec.and_allOnes

/-- `CMD` stands at one address only. -/
theorem regAt_eq_cmd {n : Nat} {word : BitVec 7} (h : regAt n word = some .cmd) : word = Reg.cmd.word := by
  by_cases h' : 64 ≤ word.toNat
  · rw [regAt, dif_pos h'] at h; split at h <;> cases h
  · rw [regAt_low n h'] at h
    have := List.find?_some h
    apply BitVec.eq_of_toNat_eq
    simp [Reg.byteOffset] at this
    rw [this]; rfl

/-- What a write to the idle block can do: start a command, change the operand bank, or nothing. -/
theorem portWrite_cases (word : BitVec 7) (v : Word) (s : State) :
    (word = Reg.cmd.word ∧ portWrite word v s = acceptCommand v s) ∨
    (word ≠ Reg.cmd.word ∧ ∃ o, portWrite word v s = { s with ops := o } ∧
      (o = s.ops ∨ (∃ c, o = { s.ops with counter := c, cntValid := true }) ∨ (∃ c, o = { s.ops with now := c, nowValid := true }) ∨
        (∃ c, o = { s.ops with codeLen := c }) ∨ (∃ c, o = { s.ops with step := c }) ∨ (∃ c, o = { s.ops with allow := c }) ∨
        (∃ c, o = s.ops.pushKey s.params c) ∨ (∃ c, o = s.ops.pushToken s.params c))) := by
  by_cases hw : word = Reg.cmd.word
  · subst hw
    refine .inl ⟨rfl, ?_⟩
    simp only [portWrite, regAt_cmd, writeReg, Reg.bits]
    rw [and_allOnes32]
  · refine .inr ⟨hw, ?_⟩
    unfold portWrite
    cases hr : regAt s.params.codeMax word with
    | none => exact ⟨s.ops, rfl, .inl rfl⟩
    | some r =>
      cases r <;>
        first
        | exact absurd (regAt_eq_cmd hr) hw
        | exact ⟨_, rfl, .inl rfl⟩
        | exact ⟨_, rfl, .inr (.inl ⟨_, rfl⟩)⟩
        | exact ⟨_, rfl, .inr (.inr (.inl ⟨_, rfl⟩))⟩
        | exact ⟨_, rfl, .inr (.inr (.inr (.inl ⟨_, rfl⟩)))⟩
        | exact ⟨_, rfl, .inr (.inr (.inr (.inr (.inl ⟨_, rfl⟩))))⟩
        | exact ⟨_, rfl, .inr (.inr (.inr (.inr (.inr (.inl ⟨_, rfl⟩)))))⟩
        | exact ⟨_, rfl, .inr (.inr (.inr (.inr (.inr (.inr (.inl ⟨_, rfl⟩))))))⟩
        | exact ⟨_, rfl, .inr (.inr (.inr (.inr (.inr (.inr (.inr ⟨_, rfl⟩))))))⟩

/-- What a port slot of the idle block can do. -/
theorem idleSlot_cases (s : State) :
    (s.port = [] ∧ idleSlot s = s) ∨
    (∃ word v rest, s.port = .write word v :: rest ∧ idleSlot s = portWrite word v { s with port := rest }) ∨
    (∃ v rest, (s.port = .wait :: rest ∨ ∃ word, s.port = .read word :: rest) ∧ idleSlot s = reply v { s with port := rest }) ∨
    (∃ rest, s.port = .reset :: rest ∧ idleSlot s = applyReset { s with port := rest }) := by
  unfold idleSlot
  rcases h : s.port with _ | ⟨_ | _ | _ | _, rest⟩
  · exact .inl ⟨rfl, rfl⟩
  · exact .inr (.inl ⟨_, _, _, rfl, rfl⟩)
  · exact .inr (.inr (.inl ⟨_, _, .inr ⟨_, rfl⟩, rfl⟩))
  · exact .inr (.inr (.inl ⟨_, _, .inl rfl, rfl⟩))
  · exact .inr (.inr (.inr ⟨_, rfl, rfl⟩))

/-- What a port slot of the busy block can do: without a reset, the block itself does not change. -/
theorem busySlot_cases (s : State) :
    (SameBlock (busySlot s) s ∧ (busySlot s).free.slots = s.free.slots ∧ (busySlot s).port <:+ s.port) ∨
    (∃ rest, s.port = .reset :: rest ∧ busySlot s = applyReset { s with port := rest }) := by
  unfold busySlot
  rcases h : s.port with _ | ⟨_ | _ | _ | _, rest⟩
  · exact .inl ⟨⟨rfl, rfl, rfl, rfl, rfl, rfl, rfl, rfl⟩, rfl, by simp [h]⟩
  · exact .inl ⟨⟨rfl, rfl, rfl, rfl, rfl, rfl, rfl, rfl⟩, rfl, List.suffix_cons _ _⟩
  · exact .inl ⟨⟨rfl, rfl, rfl, rfl, rfl, rfl, rfl, rfl⟩, rfl, List.suffix_cons _ _⟩
  · exact .inl ⟨⟨rfl, rfl, rfl, rfl, rfl, rfl, rfl, rfl⟩, rfl, by simp [h]⟩
  · exact .inr ⟨_, rfl, rfl⟩

/-- What a step can do: complete the running command, let a busy slot pass, or serve the idle block. -/
theorem step_cases (s : State) :
    (s.status.busy = true ∧ s.busyLeft = 0 ∧ step s = runCommand s.lastCmd s) ∨
    (∃ n, s.status.busy = true ∧ s.busyLeft = n + 1 ∧ step s = .next (busySlot { s with busyLeft := n })) ∨
    (s.status.busy = false ∧ step s = .next (idleSlot s)) := by
  unfold step
  cases hb : s.status.busy
  · exact .inr (.inr ⟨rfl, rfl⟩)
  · cases hl : s.busyLeft with
    | zero => exact .inl ⟨rfl, rfl, rfl⟩
    | succ n => exact .inr (.inl ⟨n, rfl, rfl, rfl⟩)

/-- A step of the idle block serves the port. -/
theorem step_idle {s : State} (h : s.status.busy = false) : step s = .next (idleSlot s) := by
  rw [step, h]; rfl

/-- What running a command word can do. -/
theorem runCommand_cases (w : Word) (s : State) :
    (∃ i, decode w = .ok i ∧ runCommand w s = exec i s) ∨
    (∃ r, decode w = .error r ∧ runCommand w s = .next (illegalCommand w s)) := by
  unfold runCommand
  cases h : decode w with
  | ok i => exact .inl ⟨i, rfl, rfl⟩
  | error r => exact .inr ⟨r, rfl, rfl⟩

end Sys2Proof.Machine
end

