-- ==== Sys2Proof/Laws/Sha1.lean ====
section
/-! SUPPORT. Laws/Sha1.lean: lengths of the padded message and of the key block, and the message schedule word by word. -/

namespace Sys2Proof.Machine

open Sys2Proof

/-- The length of `pad(M)` (41_hmac_sha1.md R131). -/
theorem shaPad_length (m : Bytes) : (shaPad m).length = m.length + 1 + shaPadZeros m.length + 8 := by
  simp [shaPad]; omega

/-- `K0(K)` has 64 bytes (41_hmac_sha1.md R137). -/
theorem hmacKeyBlock_length (k : Bytes) : (hmacKeyBlock k).length = 64 := by
  unfold hmacKeyBlock; split <;> simp; omega

theorem shaExtend_length (w : List Word) (t : Nat) : (shaExtend w t).length = w.length + 1 := by simp [shaExtend]

theorem foldl_extend (n a : Nat) (w : List Word) (hw : w.length = a) (ha : 16 ≤ a) :
    let r := (List.range' a n).foldl shaExtend w
    r.length = a + n ∧ (∀ t < a, r.getD t 0 = w.getD t 0) ∧
    ∀ t, a ≤ t → t < a + n → r.getD t 0 = rotl32 (r.getD (t - 3) 0 ^^^ r.getD (t - 8) 0 ^^^ r.getD (t - 14) 0 ^^^ r.getD (t - 16) 0) 1 := by
  induction n generalizing a w with
  | zero => simp [hw]; omega
  | succ n ih =>
    obtain ⟨hl, hold, hnew⟩ := ih (a + 1) (shaExtend w a) (by simp [shaExtend, hw]) (by omega)
    have hw' : ∀ t < a, (shaExtend w a).getD t 0 = w.getD t 0 := by
      intro t ht
      exact List.getD_append _ _ _ _ (by omega)
    have keep : ∀ t < a, (List.foldl shaExtend (shaExtend w a) (List.range' (a + 1) n)).getD t 0 = w.getD t 0 := by
      intro t ht; rw [hold t (by omega), hw' t ht]
    simp only [List.range'_succ, List.foldl_cons]
    refine ⟨by rw [hl]; omega, keep, ?_⟩
    intro t ht ht'
    by_cases e : t = a
    · subst e
      rw [hold t (by omega), keep _ (by omega), keep _ (by omega), keep _ (by omega), keep _ (by omega)]
      simp [shaExtend, hw]
    · exact hnew t (by omega) (by omega)

end Sys2Proof.Machine
end

