-- ==== Sys2Proof/Laws/Step.lean ====
section
/-! SUPPORT. Laws/Step.lean: running a command word completes it, and a run through busy slots leaves the block as it is. -/

namespace Sys2Proof.Machine

open Sys2Proof

/-- Running a command word answers a next state. -/
theorem runCommand_next (w : Word) (s : State) : ∃ t, runCommand w s = .next t := by
  rcases runCommand_cases w s with ⟨i, -, e⟩ | ⟨r, -, e⟩
  · rw [e, exec_eq]; exact ⟨_, rfl⟩
  · exact ⟨_, e⟩

/-- What running any command word leaves. -/
theorem runCommand_completed (w : Word) (s t : State) (h : runCommand w s = .next t) : Completed w s t := by
  rcases runCommand_cases w s with ⟨i, hd, e⟩ | ⟨r, -, e⟩
  · rw [e, exec_eq] at h; cases h
    rw [(decode_ok_iff _ _).mp hd]
    exact runBody_completed i _ s (bodyOf_frame i _)
  · rw [e] at h; cases h
    constructor <;> rfl

/-- One step of a run. -/
theorem core_run_succ (M : Host.Core) {s u : M.State} (h : M.step s = .next u) (n : Nat) : M.run (n + 1) s = M.run n u := by
  simp only [Host.Core.run, h]

/-- One step of a run of this machine. -/
theorem run_succ {s u : State} (h : step s = .next u) (n : Nat) :
    Host.Core.run Sys2Proof.core (n + 1) s = Host.Core.run Sys2Proof.core n u := core_run_succ Sys2Proof.core h n

/-- A run through the busy slots left, with no reset coming, leaves the block itself as it is. -/
theorem busy_run (n : Nat) (s : State) (hb : s.status.busy = true) (hl : s.busyLeft = n) (hr : Event.reset ∉ s.port) :
    ∃ u, SameBlock u { s with busyLeft := 0 } ∧ u.port <:+ s.port ∧
      ∀ m, Host.Core.run Sys2Proof.core (n + m) s = Host.Core.run Sys2Proof.core m u := by
  induction n generalizing s with
  | zero =>
    refine ⟨s, ⟨rfl, rfl, rfl, rfl, rfl, rfl, hl, rfl⟩, List.suffix_refl _, fun m => by rw [Nat.zero_add]⟩
  | succ n ih =>
    have e : step s = .next (busySlot { s with busyLeft := n }) := by simp [step, hb, hl]
    rcases busySlot_cases { s with busyLeft := n } with ⟨h, -, hp⟩ | ⟨rest, h, -⟩
    · have hsub : (busySlot { s with busyLeft := n }).port <:+ s.port := hp
      obtain ⟨u, h1, h2, h3⟩ := ih (busySlot { s with busyLeft := n }) (by rw [h.status]; exact hb) h.busyLeft
        (fun hm => hr (hsub.subset hm))
      refine ⟨u, ⟨h1.params.trans h.params, h1.ops.trans h.ops, h1.res.trans h.res, h1.status.trans h.status,
        h1.err.trans h.err, h1.lastCmd.trans h.lastCmd, h1.busyLeft, h1.time.trans h.time⟩, h2.trans hsub, ?_⟩
      intro m
      rw [show n + 1 + m = (n + m) + 1 by omega, run_succ e]; exact h3 m
    · exact absurd (show Event.reset ∈ s.port from by rw [show s.port = _ from h]; exact List.mem_cons_self) hr

end Sys2Proof.Machine
end

