-- ==== Sys2Proof/Tests/Slice0.lean ====
section
/-! SUPPORT. Tests/Slice0.lean: the smoke tests of WellFormed, the words of the five commands bit by bit, worked examples of the
spec (each cites its place in spec/), and for every statement with hypotheses a state or value that meets them. -/

namespace Sys2Proof.Tests

open Sys2Proof Sys2Proof.Machine

/-! ## Ill-formed terms are refused -/

theorem test_wf_keyMax_zero : Params.wf { Params.standard with keyMax := 0 } = false := by decide
theorem test_wf_keyMax_too_large : Params.wf { Params.standard with keyMax := 65536 } = false := by decide
theorem test_wf_codeMax_too_small : Params.wf { Params.standard with codeMax := 5 } = false := by decide
theorem test_wf_codeMax_too_large : Params.wf { Params.standard with codeMax := 65 } = false := by decide
theorem test_wf_standard : Params.wf Params.standard = true := by decide
theorem test_wf_word_reserved_field : Word.isLegalCommand 0x00000103 = false := by decide
theorem test_wf_word_opcode_zero : Word.isLegalCommand 0x00000000 = false := by decide
theorem test_wf_word_opcode_six : Word.isLegalCommand 0x00000006 = false := by decide
theorem test_wf_text_not_printable : HostLine.wf (.key ['\n']) = false := by decide
theorem test_wf_token_not_ascii : HostLine.wf (.token ['é']) = false := by decide

/-! ## Decoding: the words of 30_encoding.md R90 and R93, `RSV` then `OPC` -/

theorem test_decode_encode : decode (0b000000000000000000000000#24 ++ 0b00000001#8) = .ok .encode := by decide
theorem test_decode_hmac : decode (0b000000000000000000000000#24 ++ 0b00000010#8) = .ok .hmac := by decide
theorem test_decode_hotp : decode (0b000000000000000000000000#24 ++ 0b00000011#8) = .ok .hotp := by decide
theorem test_decode_verify : decode (0b000000000000000000000000#24 ++ 0b00000100#8) = .ok .verify := by decide
theorem test_decode_clear : decode (0b000000000000000000000000#24 ++ 0b00000101#8) = .ok .clear := by decide
/-- 44_control.md R202, its corner cases. -/
theorem test_decode_reserved : decode 0x00000000 = .error .reservedOpcode ∧ decode 0x00000103 = .error .reservedField ∧
    decode 0xFFFFFFFF = .error .reservedField := by decide
theorem test_decodeTableWord : decodeTableWord 32 3 = some .hotp ∧ decodeTableWord 8 5 = some .clear ∧
    decodeTableWord 32 6 = none := by decide
/-- The word placed for the next step runs there, as the first command after reset. -/
theorem test_withFetchWord :
    step (State.reset.withFetchWord 32 5) = .next { State.reset with
      lastCmd := 5
      status := { busy := false, done := true, err := false } } := rfl

/-! ## The pure functions -/

/-- The key `K20` of 95_test_vectors.md. -/
def k20 : Bytes :=
  asciiBytes ['1', '2', '3', '4', '5', '6', '7', '8', '9', '0', '1', '2', '3', '4', '5', '6', '7', '8', '9', '0']

/-- `HMAC_SHA1(K20, be64(1))`, 41_hmac_sha1.md R140. -/
def digest1 : Vector Byte 20 :=
  #v[0x75, 0xa4, 0x8a, 0x19, 0xd4, 0xcb, 0xe1, 0x00, 0x64, 0x4e, 0x8a, 0xc1, 0x39, 0x7e, 0xea, 0x74, 0x7a, 0x2d, 0x33, 0xab]

/-- 41_hmac_sha1.md R140. -/
theorem test_hmacSha1 : hmacSha1 k20 (be64 1).toList = digest1 := by decide +kernel
/-- 95_test_vectors.md section 3.2, the empty message. -/
theorem test_sha1_empty : (sha1 []).toList =
    [0xda, 0x39, 0xa3, 0xee, 0x5e, 0x6b, 0x4b, 0x0d, 0x32, 0x55, 0xbf, 0xef, 0x95, 0x60, 0x18, 0x90, 0xaf, 0xd8, 0x07, 0x09] := by
  decide +kernel
/-- 41_hmac_sha1.md R131: L = 55 gives z = 0, L = 56 gives 63, L = 0 gives 55. -/
theorem test_padZeros : shaPadZeros 55 = 0 ∧ shaPadZeros 56 = 63 ∧ shaPadZeros 0 = 55 := by decide
/-- 41_hmac_sha1.md R131 on `"abc"`: the length field counts bits (3 * 8 = 24), most significant byte first. -/
theorem test_pad_abc : (shaPad [0x61, 0x62, 0x63]).drop 55 = [0, 0, 0, 0, 0, 0, 0, 0, 24] ∧
    (shaPad [0x61, 0x62, 0x63]).take 5 = [0x61, 0x62, 0x63, 0x80, 0x00] := by decide
/-- The published truncation example of 95_test_vectors.md section 2. -/
theorem test_truncation : (dtOffset #v[0x1f, 0x86, 0x98, 0x69, 0x0e, 0x02, 0xca, 0x16, 0x61, 0x85, 0x50, 0xef, 0x7f, 0x19, 0xda,
      0x8e, 0x94, 0x5b, 0x55, 0x5a]).toNat = 10 ∧
    (dtTruncated #v[0x1f, 0x86, 0x98, 0x69, 0x0e, 0x02, 0xca, 0x16, 0x61, 0x85, 0x50, 0xef, 0x7f, 0x19, 0xda,
      0x8e, 0x94, 0x5b, 0x55, 0x5a]).toNat = 1357872921 ∧ codeValue 1357872921 = 872921 := by decide
/-- 42_hotp.md R170, the corners of the modulus. -/
theorem test_codeValue : codeValue 1000000 = 0 ∧ codeValue 999999 = 999999 ∧ codeValue 2147483647 = 483647 := by decide
/-- 42_hotp.md R164: padding, no cutting, and the single digit of 0. -/
theorem test_render : render 152 4 = asciiBytes ['0', '1', '5', '2'] ∧ render 152 2 = asciiBytes ['1', '5', '2'] ∧
    render 0 0 = asciiBytes ['0'] ∧ render 999999 6 = asciiBytes ['9', '9', '9', '9', '9', '9'] := by decide
/-- 95_test_vectors.md section 6.1. -/
theorem test_tstep : tstepFn 29 30 = 0 ∧ tstepFn 30 30 = 1 ∧ tstepFn 20000000000 30 = 666666666 ∧
    tstepFn 18446744073709551615 30 = 614891469123651720 ∧ tstepFn 18446744073709551615 4294967295 = 4294967297 := by decide
/-- 95_test_vectors.md section 6.2, the rows `T = 1, allow = 2` and `T = 2^64 − 1, allow = 1`. -/
theorem test_window : ((List.range 5).map (window 1 2)) = [18446744073709551615, 0, 1, 2, 3] ∧ windowWraps 1 2 = true ∧
    ((List.range 3).map (window 18446744073709551615 1)) = [18446744073709551614, 18446744073709551615, 0] ∧
    windowWraps 1 1 = false ∧ windowWraps 0 0 = false ∧ windowWraps 18446744073709551615 0 = false := by decide
/-- 70_reset_and_hazards.md R250. -/
theorem test_work : hmacWork 64 = 4 ∧ hmacWork 65 = 6 ∧ hmacWork 256 = 9 := by decide

/-! ## One command each, from small states -/

/-- Reset with an operand bank. -/
def withOps (o : OperandBank) : State := { State.reset with ops := o }
/-- The state a command leaves. -/
def after (i : Instr) (s : State) : State :=
  match exec i s with
  | .next t => t
  | .fault _ => s
  | .refused _ => s

/-- 95_test_vectors.md section 3.1. -/
theorem test_encode : readReg .encHi (after .encode (withOps { OperandBank.default with counter := 0x0102030405060708 })) = 0x01020304 ∧
    readReg .encLo (after .encode (withOps { OperandBank.default with counter := 0x0102030405060708 })) = 0x05060708 := by decide
/-- 40_counter_codec.md R121: no counter written, no error. -/
theorem test_encode_without_counter : statusWord (after .encode State.reset) = 0x00000002 := by decide

/-- The state of 41_hmac_sha1.md R141's example before `HMAC`: `ENC` holds the encoding of 1, and the key is pushed again. -/
def hmacState : State := { withOps { OperandBank.default with key := k20 } with res := { ResultBank.cleared with enc := be64 1 } }
/-- 41_hmac_sha1.md R141, its example. -/
theorem test_hmac : ∃ t, exec .hmac hmacState = .next t ∧ t.res.digest = digest1 := by
  have hm : hmacMiss hmacState.ops = 0 := by decide
  have hv : hmacBad hmacState.ops = 0 := by decide
  have hb : bodyOf .hmac (startCommand .hmac hmacState) = hmacCompute (startCommand .hmac hmacState) := by
    simp only [bodyOf, hmacBody, startCommand_ops]
    exact checked_ok hm hv
  refine ⟨_, (exec_eq .hmac _).trans (congrArg _ (runBody_finished hb).1), ?_⟩
  have hk : (startCommand .hmac hmacState).ops.key = k20 := rfl
  have he : (startCommand .hmac hmacState).res.enc = be64 1 := rfl
  rw [complete_res, hk, he]
  exact test_hmacSha1
theorem test_hmac_without_key : (after .hmac State.reset).err = 0x00000101 := by decide

/-- The intermediate values of 95_test_vectors.md program P1. -/
theorem test_hotpFn : (hotpFn k20 1 6).offset = 11 ∧ (hotpFn k20 1 6).trunc = 0x41397eea ∧ (hotpFn k20 1 6).codeVal = 287082 ∧
    (hotpFn k20 1 6).code = asciiBytes ['2', '8', '7', '0', '8', '2'] := by
  simp only [hotpFn, test_hmacSha1]; decide
/-- The operands of 95_test_vectors.md program P1. -/
def hotpState : State := withOps { OperandBank.default with key := k20, counter := 1, cntValid := true }
/-- 95_test_vectors.md program P1: the code of counter 1. -/
theorem test_hotp : ∃ t, exec .hotp hotpState = .next t ∧ t.res.code = asciiBytes ['2', '8', '7', '0', '8', '2'] ∧ t.err = 0 := by
  obtain ⟨t, e, h, ht⟩ := hotp_next (s := hotpState) (by constructor <;> decide)
  have hl : hotpState.ops.codeLen.toNat = 6 := by decide
  have hc : (hotpFn hotpState.ops.key hotpState.ops.counter 6).code = asciiBytes ['2', '8', '7', '0', '8', '2'] :=
    test_hotpFn.2.2.2
  refine ⟨t, e, ?_, h.errWord⟩
  rw [ht, complete_res, storeHotp_code, hl, hc]
/-- 60_exceptions.md R211: key and counter missing. -/
theorem test_hotp_without_operands : (after .hotp State.reset).err = 0x00000301 := by decide

/-- The operands of `key K20; token "287082"; now 59` (43_totp_verify.md R185, its example). -/
def verifyOps : OperandBank :=
  { OperandBank.default with key := k20, token := asciiBytes ['2', '8', '7', '0', '8', '2'], now := 59, nowValid := true }
theorem test_verify_ready : VerifyReady (withOps verifyOps) := by constructor <;> decide
/-- 43_totp_verify.md R185, its example: `STATUS = 0x0000000A`. -/
theorem test_verify : ∃ t, exec .verify (withOps verifyOps) = .next t ∧ statusWord t = 0x0000000A ∧ t.res.tstep = 1 := by
  have hw : window (tstepFn (usedTime (withOps verifyOps)) (withOps verifyOps).ops.step) (withOps verifyOps).ops.allow 0 = 1 := by
    decide
  have hsc : verifyScan (usedTime (withOps verifyOps)) (withOps verifyOps) = .found (hotpFn k20 1 6) 0 := by
    have hm : (hotpFn k20 (window (tstepFn (usedTime (withOps verifyOps)) (withOps verifyOps).ops.step)
        (withOps verifyOps).ops.allow 0) (withOps verifyOps).ops.token.length).code = (withOps verifyOps).ops.token := by
      rw [hw]; exact test_hotpFn.2.2.2
    have h := scanFrom_found (quirk := false) (2 * (withOps verifyOps).ops.allow.toNat) (fun h => absurd h (by decide)) hm
    rw [hw] at h; exact h
  have hb := verify_body test_verify_ready
  rw [hsc] at hb
  obtain ⟨e, hs⟩ := runBody_finished hb
  refine ⟨_, (exec_eq .verify _).trans (congrArg _ e), ?_, ?_⟩
  · rw [statusWord_completed hs.completed, hs.errFlag]
    have : (complete { latchTime (usedTime (withOps verifyOps)) (sampleTime (startCommand .verify (withOps verifyOps))) with
        res := { (latchTime (usedTime (withOps verifyOps)) (sampleTime (startCommand .verify (withOps verifyOps)))).res.storeHotp
          (hotpFn k20 1 6) with matched := true } }).res.wrap = false := by decide
    rw [this]; rfl
  · decide
/-- 95_test_vectors.md section 7, `STEP = 0`. -/
theorem test_verify_step_zero : (after .verify (withOps { verifyOps with step := 0 })).err = 0x00040002 := by decide

/-- 44_control.md R200. -/
theorem test_clear : statusWord (after .clear (withOps { verifyOps with step := 60 })) = 0x00000002 ∧
    (after .clear (withOps { verifyOps with step := 60 })).ops.step = 30 := by decide
/-- 95_test_vectors.md section 8: `wr CMD, 0x00000103`. -/
theorem test_reserved_word : runCommand 0x00000103 State.reset = .next { State.reset with
    err := 0x00000003, lastCmd := 0x00000103, status := { busy := false, done := true, err := true } } := rfl

/-! ## The port (95_test_vectors.md section 8) -/

theorem test_key_push_low_byte : (portWrite Reg.keyPush.word 0x12345641 State.reset).ops.key = [0x41] := by decide
theorem test_token_push_17 :
    statusWord ((List.range 17).foldl (fun s _ => portWrite Reg.tokenPush.word 0x30 s) State.reset) = 0x00000800 ∧
    ((List.range 17).foldl (fun s _ => portWrite Reg.tokenPush.word 0x30 s) State.reset).ops.token.length = 16 := by decide
theorem test_writes_without_effect : portWrite Reg.status.word 0xFFFFFFFF State.reset = State.reset ∧
    portWrite Reg.encHi.word 1 State.reset = State.reset ∧ portWrite 15 1 State.reset = State.reset := by decide
theorem test_reads_of_zero : portRead Reg.cmd.word State.reset = 0 ∧ portRead 15 State.reset = 0 ∧ portRead 31 State.reset = 0 ∧
    portRead 80 State.reset = 0 := by decide
/-- 10_state.md R41 and R30: a matching `VERIFY` shows at bits 1 and 3, a code byte at its own address. -/
theorem test_reads_of_results :
    let s := { State.reset with status := { busy := false, done := true, err := false },
                                res := { ResultBank.cleared with matched := true, code := [0x31, 0x32], digest := digest1 } }
    portRead 1 s = 0x0000000A ∧ portRead 65 s = 0x32 ∧ portRead 26 s = 2 ∧ portRead 18 s = 0x75a48a19 := by decide
/-- 20_memory.md R60 with 30_encoding.md R96: one step of the idle block takes a write. -/
theorem test_step_takes_a_write : step { State.reset with port := [.write 6 8] } =
    .next { State.reset with ops := { OperandBank.default with codeLen := 8 } } := rfl
theorem test_status_counter_written : statusWord (portWrite Reg.counterLo.word 7 State.reset) = 0x00000100 := by decide
/-- 30_encoding.md R107 with a counter and the default length: key, counter, command, wait. -/
theorem test_hotp_call : programEvents (hotpCall [0x61] (some 1) none) =
    [.write 11 0x61, .write 4 1, .write 5 0, .write 0 3, .wait] := by decide
theorem test_hotp_call_is_well_formed : (hotpCall [0x61] (some 1) none).all HostLine.wf = true := by decide

/-! ## Witnesses: for each statement with hypotheses, states or values that meet them, clause by clause -/

/-- A busy state with `n` slots left, running `w`, with events to come. -/
def busyWith (n : Nat) (w : Word) (port : List Event) : State :=
  { beginCommand w State.reset with busyLeft := n, port := port }
/-- An idle state with events to come. -/
def idleWith (port : List Event) : State := { State.reset with port := port }
/-- Reset of a block built with the quirk, with an operand bank. -/
def quirkWith (o : OperandBank) : State := { withOps o with params := { Params.standard with zeroCounterMissing := true } }

theorem test_witness_ResetPutsEveryRegisterAtItsResetValue :
    ((idleWith [.reset]).port = .reset :: [] ∧ ((idleWith [.reset]).status.busy = true → (idleWith [.reset]).busyLeft ≠ 0)) ∧
    ((busyWith 1 4 [.reset]).port = .reset :: [] ∧ (busyWith 1 4 [.reset]).busyLeft ≠ 0) := by decide

/-- A state after `CODE_LEN` was written, with a read to come, meets the invariant, and the step from it answers. -/
def codeLenState : State := { withOps { OperandBank.default with codeLen := 8 } with port := [.read 6] }
theorem test_witness_EveryStepKeepsTheInvariant : codeLenState.Inv ∧ ∃ t, step codeLenState = .next t := by
  have he : ErrShape codeLenState.err := by constructor <;> decide
  exact ⟨⟨by decide, by decide, by decide, by decide, by decide, by decide, by decide, by decide, by decide, by decide,
    .inl rfl, by decide, by decide, fun _ _ => ⟨rfl, rfl, rfl, rfl⟩, by decide, he, by decide,
    fun h => absurd h (by decide)⟩, _, rfl⟩

theorem test_witness_StepRunsTheDecodedCommand :
    ((busyWith 0 4 []).status.busy = true ∧ (busyWith 0 4 []).busyLeft = 0 ∧ decode (busyWith 0 4 []).lastCmd = .ok .verify) ∧
    ((busyWith 0 6 []).status.busy = true ∧ (busyWith 0 6 []).busyLeft = 0 ∧
      decode (busyWith 0 6 []).lastCmd = .error .reservedOpcode) := by decide
theorem test_witness_ABusyBlockCompletes :
    (busyWith 3 1 [.wait]).status.busy = true ∧ Event.reset ∉ (busyWith 3 1 [.wait]).port := by decide
theorem test_witness_ACommandIsOneTransition :
    (idleWith [.write Reg.cmd.word 3, .wait]).status.busy = false ∧
    (idleWith [.write Reg.cmd.word 3, .wait]).port = .write Reg.cmd.word 3 :: [.wait] ∧ Event.reset ∉ [Event.wait] := by decide

theorem test_witness_HmacComputesTheDigestOrReportsTheKey :
    HmacReady (withOps { OperandBank.default with key := [0] }) ∧ State.reset.ops.key = [] ∧
    ((withOps { OperandBank.default with key := [0], keyOvf := true }).ops.key ≠ [] ∧
      (withOps { OperandBank.default with key := [0], keyOvf := true }).ops.keyOvf = true) :=
  ⟨by constructor <;> decide, by decide, by decide⟩

/-- Operands that pass the checks of `HOTP`, `CODE_LEN` at the capacity. -/
def hotpFull : OperandBank := { OperandBank.default with key := [0], cntValid := true, codeLen := 16 }
theorem test_witness_HotpComputesTheCodeOrReportsItsOperands_ready :
    HotpReady (withOps hotpFull) ∧ HotpReady (quirkWith { hotpFull with counter := 1 }) :=
  ⟨by constructor <;> decide, by constructor <;> decide⟩
theorem test_witness_HotpComputesTheCodeOrReportsItsOperands_missing :
    State.reset.ops.key = [] ∧ (withOps { hotpFull with cntValid := false }).ops.cntValid = false ∧
    ((quirkWith hotpFull).params.zeroCounterMissing = true ∧ (quirkWith hotpFull).ops.counter = 0) := by decide
theorem test_witness_HotpComputesTheCodeOrReportsItsOperands_invalid :
    let s := withOps { hotpFull with codeLen := 17 }
    let s' := withOps { hotpFull with keyOvf := true }
    (s.ops.key ≠ [] ∧ s.ops.cntValid = true ∧ (s.params.zeroCounterMissing = true → s.ops.counter ≠ 0) ∧
      s.params.codeMax < s.ops.codeLen.toNat) ∧
    (s'.ops.key ≠ [] ∧ s'.ops.cntValid = true ∧ (s'.params.zeroCounterMissing = true → s'.ops.counter ≠ 0) ∧
      s'.ops.keyOvf = true) := by decide
theorem test_witness_CounterZeroIsAcceptedUnlessTheQuirkIsBuiltIn :
    let s := withOps hotpFull
    (s.ops.key ≠ [] ∧ s.ops.counter = 0 ∧ s.params.zeroCounterMissing = false ∧ s.ops.cntValid = true ∧ s.ops.keyOvf = false ∧
      s.ops.codeLen.toNat ≤ s.params.codeMax) ∧
    ((quirkWith hotpFull).ops.key ≠ [] ∧ (quirkWith hotpFull).ops.counter = 0 ∧
      (quirkWith hotpFull).params.zeroCounterMissing = true) := by decide

/-- The only window index is a match: 43_totp_verify.md R185's example. -/
theorem test_witness_VerifyScansTheWindowInOrder_match :
    let s := withOps verifyOps
    let t₀ := tstepFn (usedTime s) s.ops.step
    VerifyReady s ∧ 0 ≤ 2 * s.ops.allow.toNat ∧
    (hotpFn s.ops.key (window t₀ s.ops.allow 0) s.ops.token.length).code = s.ops.token ∧
    (∀ j < 0, (hotpFn s.ops.key (window t₀ s.ops.allow j) s.ops.token.length).code ≠ s.ops.token) ∧
    (s.params.zeroCounterMissing = true → ∀ j ≤ 0, window t₀ s.ops.allow j ≠ 0) := by
  intro s t₀
  have hw : window t₀ s.ops.allow 0 = 1 := by decide
  refine ⟨test_verify_ready, Nat.zero_le _, ?_, fun j hj => absurd hj (by omega), fun h => absurd h (by decide)⟩
  rw [hw]; exact test_hotpFn.2.2.2

/-- A byte that is no digit occurs in no code. -/
theorem code_ne_of_not_digit {k : Bytes} {c : Dword} {n : Nat} {t : Bytes} {b : Byte} (hb : b ∈ t) (hd : isDigit b = false) :
    (hotpFn k c n).code ≠ t := by
  rintro rfl
  rw [hotpFn_code] at hb
  rw [render_digits _ _ b hb] at hd
  exact absurd hd (by decide)

/-- Operands of `VERIFY` with a token that matches nothing and the radius 1. -/
def noMatchOps : OperandBank :=
  { OperandBank.default with key := [0], token := [0x61], allow := 1, now := 90, nowValid := true }
theorem noMatch_ready : VerifyReady (withOps noMatchOps) := by constructor <;> decide
theorem test_witness_VerifyScansTheWindowInOrder_none :
    let s := withOps noMatchOps
    let t₀ := tstepFn (usedTime s) s.ops.step
    VerifyReady s ∧
    (∀ j ≤ 2 * s.ops.allow.toNat, (hotpFn s.ops.key (window t₀ s.ops.allow j) s.ops.token.length).code ≠ s.ops.token) ∧
    (s.params.zeroCounterMissing = true → ∀ j ≤ 2 * s.ops.allow.toNat, window t₀ s.ops.allow j ≠ 0) :=
  ⟨noMatch_ready, fun _ _ => code_ne_of_not_digit (b := 0x61) (by decide) (by decide), fun h => absurd h (by decide)⟩

/-- The window 0, 1, 2 of a quirk block: its first counter is 0; and one whose last counter is 0. -/
theorem test_witness_VerifyScansTheWindowInOrder_zero :
    let s := quirkWith { noMatchOps with now := 30 }
    let t₀ := tstepFn (usedTime s) s.ops.step
    VerifyReady s ∧ s.params.zeroCounterMissing = true ∧ 0 ≤ 2 * s.ops.allow.toNat ∧ window t₀ s.ops.allow 0 = 0 ∧
    (∀ j < 0, window t₀ s.ops.allow j ≠ 0 ∧
      (hotpFn s.ops.key (window t₀ s.ops.allow j) s.ops.token.length).code ≠ s.ops.token) :=
  ⟨by constructor <;> decide, by decide, Nat.zero_le _, by decide, fun j hj => absurd hj (by omega)⟩
theorem test_witness_VerifyUnderTheQuirkStopsAtCounterZero_last :
    let s := quirkWith { noMatchOps with now := 18446744073709551615, step := 1 }
    let t₀ := tstepFn (usedTime s) s.ops.step
    VerifyReady s ∧ s.params.zeroCounterMissing = true ∧ 2 ≤ 2 * s.ops.allow.toNat ∧ window t₀ s.ops.allow 2 = 0 ∧
    (∀ j < 2, window t₀ s.ops.allow j ≠ 0 ∧
      (hotpFn s.ops.key (window t₀ s.ops.allow j) s.ops.token.length).code ≠ s.ops.token) := by
  refine ⟨by constructor <;> decide, by decide, by decide, by decide, fun j hj => ⟨?_, ?_⟩⟩
  · have : j = 0 ∨ j = 1 := by omega
    rcases this with rfl | rfl <;> decide
  · exact code_ne_of_not_digit (b := 0x61) (by decide) (by decide)
theorem test_witness_VerifyUnderTheQuirkStopsAtCounterZero_off :
    VerifyReady (withOps noMatchOps) ∧ (withOps noMatchOps).params.zeroCounterMissing = false := ⟨noMatch_ready, by decide⟩
theorem test_witness_VerifyScansTheWindowInOrder_failed : ¬ VerifyReady State.reset := fun h => h.key rfl
theorem test_witness_VerifyChecksItsOperandsInOrder :
    let s := withOps { noMatchOps with step := 0 }
    let s' := withOps { noMatchOps with tokOvf := true }
    let s'' := withOps { noMatchOps with keyOvf := true }
    State.reset.ops.key = [] ∧ (withOps { noMatchOps with token := [] }).ops.token = [] ∧
    (s.ops.key ≠ [] ∧ s.ops.token ≠ [] ∧ s.ops.step = 0) ∧ (s'.ops.key ≠ [] ∧ s'.ops.token ≠ [] ∧ s'.ops.tokOvf = true) ∧
    (s''.ops.key ≠ [] ∧ s''.ops.token ≠ [] ∧ s''.ops.keyOvf = true) := by decide
theorem test_witness_VerifyWithNoAllowanceComparesWithTheCurrentCode :
    VerifyReady (withOps verifyOps) ∧ (withOps verifyOps).ops.allow = 0 ∧
    (withOps verifyOps).params.zeroCounterMissing = false := ⟨test_verify_ready, by decide, by decide⟩
theorem test_witness_ClearReturnsTheBlockToReset :
    (busyWith 1 4 [.write Reg.cmd.word 5]).status.busy = true ∧ (busyWith 1 4 [.write Reg.cmd.word 5]).busyLeft = 0 + 1 ∧
    (busyWith 1 4 [.write Reg.cmd.word 5]).port = .write Reg.cmd.word 0x00000005 :: [] := by decide
theorem test_witness_AReservedWordIsReportedAndComputesNothing :
    (0x00000103 : Word) ≠ 0x00000001 ∧ (0x00000103 : Word) ≠ 0x00000002 ∧ (0x00000103 : Word) ≠ 0x00000003 ∧
    (0x00000103 : Word) ≠ 0x00000004 ∧ (0x00000103 : Word) ≠ 0x00000005 := by decide

/-- The hypothesis of `EveryCommandDiscardsTheOperands`, `EveryCommandEndsWithAConsistentStatus` and
`OperandsAreConsumedByEveryCommand`. -/
theorem test_witness_EveryCommandDiscardsTheOperands :
    (∃ t, runCommand 0x00000001 (withOps verifyOps) = .next t) ∧ (∃ t, runCommand 0x00000006 (withOps verifyOps) = .next t) :=
  ⟨⟨_, rfl⟩, ⟨_, rfl⟩⟩
theorem test_witness_EveryCommandKeepsTheResultsOutsideItsWriteSet :
    (∃ t, exec .encode (withOps verifyOps) = .next t) ∧ (Instr.encode ≠ .verify) ∧ decode 0x00000006 = .error .reservedOpcode ∧
    (∃ t, runCommand 0x00000006 State.reset = .next t) := ⟨⟨_, rfl⟩, by decide, by decide, ⟨_, rfl⟩⟩
theorem test_witness_AFailedCommandLeavesItsWriteSetClean :
    ∃ t, exec .hmac State.reset = .next t ∧ t.status.err = true := ⟨_, rfl, by decide⟩
/-- A match and an error, for the clauses of `EveryCommandEndsWithAConsistentStatus`. -/
theorem test_witness_EveryCommandEndsWithAConsistentStatus :
    (∃ t, runCommand 0x00000002 State.reset = .next t ∧ t.status.err = true) ∧
    (∃ t, exec .verify (withOps verifyOps) = .next t ∧ statusWord t = 0x0000000A) := by
  refine ⟨⟨_, rfl, by decide⟩, ?_⟩
  obtain ⟨t, h, h', -⟩ := test_verify
  exact ⟨t, h, h'⟩
theorem test_witness_CommandsTouchNothingOutsideTheBlock : ∃ t, exec .verify State.reset = .next t := ⟨_, rfl⟩
theorem test_witness_HotpDependsOnItsOperandsAlone :
    let s := withOps hotpFull
    let s' := withOps { hotpFull with step := 7, token := [1], now := 5 }
    s.params = s'.params ∧ s.ops.key = s'.ops.key ∧ s.ops.keyOvf = s'.ops.keyOvf ∧ s.ops.counter = s'.ops.counter ∧
    s.ops.cntValid = s'.ops.cntValid ∧ s.ops.codeLen = s'.ops.codeLen ∧ s ≠ s' := by decide
theorem test_witness_VerifyDependsOnItsOperandsAlone :
    let s := withOps verifyOps
    let s' := withOps { verifyOps with counter := 9, cntValid := true, codeLen := 99 }
    s.params = s'.params ∧ s.ops.key = s'.ops.key ∧ s.ops.keyOvf = s'.ops.keyOvf ∧ s.ops.token = s'.ops.token ∧
    s.ops.tokOvf = s'.ops.tokOvf ∧ s.ops.step = s'.ops.step ∧ s.ops.allow = s'.ops.allow ∧ usedTime s = usedTime s' ∧ s ≠ s' := by
  decide

/-- The last code byte the default build has, and the reserved offset after it. -/
theorem test_witness_TheAddressMapIsTheTable : regAt 16 79 = some (.code 15) ∧ regAt 16 80 = none ∧
    regAt 16 0 = some .cmd ∧ Reg.access .cmd = .wo ∧ regAt 16 1 = some .status ∧ Reg.access .status = .ro := by decide
theorem test_witness_ReservedAndOneWayRegisters : regAt State.reset.params.codeMax 15 = none ∧
    regAt State.reset.params.codeMax 31 = none ∧ regAt State.reset.params.codeMax 63 = none ∧
    (regAt State.reset.params.codeMax 11 = some .keyPush ∧ Reg.access .keyPush = .wo) ∧
    (regAt State.reset.params.codeMax 12 = some .keyLen ∧ Reg.access .keyLen = .ro) := by decide
theorem test_witness_AReadHasNoSideEffect :
    (idleWith [.read 127]).status.busy = false ∧ (idleWith [.read 127]).port = .read 127 :: [] := by decide
theorem test_witness_ACommandWriteIsAcceptedExactlyWhenIdle :
    ((idleWith [.write Reg.cmd.word 0]).port = .write Reg.cmd.word 0 :: [] ∧
      (idleWith [.write Reg.cmd.word 0]).status.busy = false) ∧
    ((busyWith 1 3 [.write Reg.cmd.word 0]).port = .write Reg.cmd.word 0 :: [] ∧
      (busyWith 1 3 [.write Reg.cmd.word 0]).status.busy = true ∧ (busyWith 1 3 [.write Reg.cmd.word 0]).busyLeft = 0 + 1) := by
  decide
theorem test_witness_ABusyBlockDropsWrites :
    (busyWith 2 3 [.write 11 1]).status.busy = true ∧ (busyWith 2 3 [.write 11 1]).busyLeft = 1 + 1 ∧
    (busyWith 2 3 [.write 11 1]).port = .write 11 1 :: [] := by decide
theorem test_witness_ABusyBlockAnswersReads :
    (busyWith 1 3 [.read Reg.status.word]).status.busy = true ∧ (busyWith 1 3 [.read Reg.status.word]).busyLeft = 0 + 1 ∧
    (busyWith 1 3 [.read Reg.status.word]).port = .read Reg.status.word :: [] := by decide
theorem test_witness_WaitPollsUntilTheBlockIsIdle :
    ((idleWith [.wait]).port = .wait :: [] ∧ (idleWith [.wait]).status.busy = false) ∧
    ((busyWith 1 3 [.wait]).port = .wait :: [] ∧ (busyWith 1 3 [.wait]).status.busy = true ∧
      (busyWith 1 3 [.wait]).busyLeft = 0 + 1) := by decide
theorem test_witness_WritingTheCounterSetsItsHalfAndItsFlag : State.reset.ops.counter = 0 := by decide
theorem test_witness_WritingTheTimeSetsItsHalfAndItsFlag :
    VerifyReady (withOps verifyOps) ∧ (withOps verifyOps).params.zeroCounterMissing = false := ⟨test_verify_ready, by decide⟩
/-- Buffers at their capacity. -/
theorem test_witness_PushedKeyAndTokenBytesAccumulateUpToTheCapacity :
    (withOps { OperandBank.default with key := List.replicate 256 0 }).ops.key.length ≤ State.reset.params.keyMax ∧
    (withOps { OperandBank.default with token := List.replicate 16 0 }).ops.token.length ≤ State.reset.params.codeMax :=
  ⟨Nat.le_of_eq List.length_replicate, Nat.le_of_eq List.length_replicate⟩
theorem test_witness_ErrorsAndResultsStayUntilTheNextCommand :
    (idleWith [.write 7 0]).status.busy = false ∧ (∀ w, (idleWith [.write 7 0]).port.head? ≠ some (.write Reg.cmd.word w)) ∧
    (idleWith [.write 7 0]).port.head? ≠ some .reset ∧ ∃ t, step (idleWith [.write 7 0]) = .next t :=
  ⟨by decide, fun w h => absurd (Event.write.inj (Option.some.inj h)).1 (by decide),
    by decide, _, rfl⟩
theorem secrets_apart (n : Nat) (w : Word) : SecretsApart
    { busyWith n w [] with ops := { OperandBank.default with key := [1], token := [2] } }
    { busyWith n w [] with ops := { OperandBank.default with key := [3], token := [4] } } := ⟨rfl, rfl, rfl⟩
theorem test_witness_NoRegisterShowsAKeyByte : ∃ s s', SecretsApart s s' ∧ s.ops.key ≠ s'.ops.key :=
  ⟨_, _, secrets_apart 0 1, by decide⟩
/-- A busy block with a write to drop (and one with its completion next), and an idle one with a `CLEAR` next. -/
theorem test_witness_SecretsStayHiddenWithoutACommandThatReadsThem :
    let apart (s : State) (k : Bytes) : State := { s with ops := { OperandBank.default with key := k } }
    let b := busyWith 1 1 [.write 11 7]
    let c := busyWith 0 1 [.read 1]
    let i := idleWith [.write Reg.cmd.word 5]
    (SecretsApart (apart b [1]) (apart b [2]) ∧ b.status.busy = true ∧ b.busyLeft ≠ 0 ∧
      b.lastCmd ≠ 0x00000002 ∧ b.lastCmd ≠ 0x00000003 ∧ b.lastCmd ≠ 0x00000004 ∧
      (∀ w, b.port.head? ≠ some (.read w)) ∧ b.port.head? ≠ some .wait) ∧
    (SecretsApart (apart c [1]) (apart c [2]) ∧ c.status.busy = true ∧ c.busyLeft = 0 ∧
      c.lastCmd ≠ 0x00000002 ∧ c.lastCmd ≠ 0x00000003 ∧ c.lastCmd ≠ 0x00000004) ∧
    (SecretsApart (apart i [1]) (apart i [2]) ∧ i.status.busy = false ∧ i.port.head? ≠ some (.write Reg.cmd.word 0x00000002) ∧
      i.port.head? ≠ some (.write Reg.cmd.word 0x00000003) ∧ i.port.head? ≠ some (.write Reg.cmd.word 0x00000004)) := by
  refine ⟨⟨⟨rfl, rfl, rfl⟩, by decide, by decide, by decide, by decide, by decide, fun w h => ?_, by decide⟩,
    ⟨⟨rfl, rfl, rfl⟩, by decide⟩, ⟨⟨rfl, rfl, rfl⟩, by decide⟩⟩
  cases h
theorem test_witness_OnlyAlignedWordAccessesReachThePort :
    (508 < 512 ∧ 508 % 4 = 0) ∧ (2 ≠ 4 ∨ Config.base % 4 = 0) ∧ Config.base + 512 ≤ Config.base + 512 ∧
    (Config.base + 1) % 4 ≠ 0 := by
  refine ⟨by decide, .inl (by decide), Nat.le_refl _, ?_⟩
  have : Config.base = 512 * Config.baseBlock := rfl
  omega
/-- For `RenderingPadsAndNeverCuts`, `PaddingFillsWholeBlocks` (every clause), `TheKeyBlockIsSixtyFourBytes` (both clauses),
`OneHmacCostsFourBlocksAndTheKeys` and `TheTimeStepIsTheFloorOfTheQuotient` (both clauses). -/
theorem test_witness_pure_functions : (999999 ≤ 999999 ∧ (999999 : Nat) ≠ 0) ∧ (55 + 1 + 0 + 8) % 64 = 0 ∧
    ([] : Bytes).length < 2 ^ 61 ∧ 54 < shaPadZeros ([] : Bytes).length ∧ 7 < 8 ∧
    (List.replicate 64 (0 : Byte)).length ≤ 64 ∧ 64 < (List.replicate 65 (0 : Byte)).length ∧
    (be64 0).toList.length = 8 ∧ (4294967295 : Word) ≠ 0 ∧ (withOps { noMatchOps with step := 0 }).ops.step = 0 := by decide
/-- The clauses of `TheWindowAscendsAndVisitsEachCounterOnce`: nothing wraps, below 0, above 2^64 − 1. -/
theorem test_witness_TheWindowAscendsAndVisitsEachCounterOnce :
    ((2 : Word).toNat ≤ (2 : Dword).toNat ∧ (2 : Dword).toNat + (2 : Word).toNat ≤ 2 ^ 64 - 1) ∧
    ((1 : Dword).toNat < (2 : Word).toNat ∧ 0 < (2 : Word).toNat - (1 : Dword).toNat) ∧
    2 ^ 64 - 1 < (18446744073709551615 : Dword).toNat + (1 : Word).toNat := by decide
/-- The invariant's clauses of `TheOperandRegistersReadWhatTheyHold` and `TheResultRegistersReadWhatTheyHold`, the last code byte of
the default build, the first and last digest words, and a code byte beyond the length. -/
theorem test_witness_TheRegistersReadWhatTheyHold : codeLenState.Inv ∧ (15 < 64 ∧ 15 < codeLenState.params.codeMax) ∧
    (0 < 5 ∧ 4 < 5) ∧ (63 < 64 ∧ codeLenState.res.code.length ≤ 63) :=
  ⟨test_witness_EveryStepKeepsTheInvariant.1, by decide, by decide, by decide⟩
/-- A write to a register and to a reserved offset, nothing at the port, and the first and last addresses of the map. -/
theorem test_witness_TheIdleBlockServesWritesAndElseStays :
    ((idleWith [.write 4 1]).status.busy = false ∧ (idleWith [.write 4 1]).port = .write 4 1 :: []) ∧
    ((idleWith [.write 127 1]).status.busy = false ∧ (idleWith [.write 127 1]).port = .write 127 1 :: []) ∧
    ((idleWith []).status.busy = false ∧ (idleWith []).port = []) ∧
    regAt 16 0 = some .cmd ∧ regAt 16 79 = some (.code 15) := by decide

end Sys2Proof.Tests
end

/-! PROOFS. The statements of 10_state.md that hold of every command: the operands discarded (R24), the results outside the
write set kept (R31), and the write set clean when the body starts and after an error (R32). -/

namespace Sys2Proof.Machine

open Sys2Proof

/-! ### Frames widened to a larger set -/

theorem KeptOutside.mono {ws vs : List ResMember} {a b : ResultBank} (h : KeptOutside ws a b) (hsub : ws ⊆ vs) :
    KeptOutside vs a b := fun m hm => h m fun hw => hm (hsub hw)

theorem BodyFrame.mono {ws vs : List ResMember} {s t : State} (h : BodyFrame ws s t) (hsub : ws ⊆ vs) : BodyFrame vs s t :=
  { h with res := h.res.mono hsub }

theorem EndFrame.mono {ws vs : List ResMember} {s : State} {e : CmdEnd} (h : EndFrame ws s e) (hsub : ws ⊆ vs) :
    EndFrame vs s e := by
  cases e with
  | finished t => exact BodyFrame.mono h hsub
  | raised k info t => exact BodyFrame.mono h hsub

/-! ### What a whole command answers -/

/-- The state `exec` answers is the life of the command around its body. -/
theorem eq_runBody_of_exec {i : Instr} {s t : State} (h : exec i s = .next t) : t = runBody i (bodyOf i) s := by
  rw [exec_eq] at h
  cases h
  rfl

/-- A reserved word is answered by `illegalCommand` (44_control.md R202). -/
theorem runCommand_of_decode_error {w : Word} {r : DecodeReject} (h : decode w = .error r) (s : State) :
    runCommand w s = .next (illegalCommand w s) := by
  rw [runCommand, h]

@[simp] theorem illegalCommand_res (w : Word) (s : State) :
    (illegalCommand w s).res = { s.res with matched := false, wrap := false } := rfl

theorem exec_kept {i : Instr} {s t : State} (h : exec i s = .next t) :
    KeptOutside (writeSet i ++ [.matched, .wrap]) s.res t.res := by
  rw [eq_runBody_of_exec h]
  exact runBody_kept i _ s (bodyOf_frame i _)

/-! ### The write set -/

theorem startCommand_clears_writeSet (i : Instr) (s : State) : ClearedOn (writeSet i) (startCommand i s).res :=
  clearSet_clears (writeSet i) _

/-- Only a body that raised leaves `ERR` set, and error entry clears the write set (60_exceptions.md R214). -/
theorem exec_error_clears_writeSet {i : Instr} {s t : State} (h : exec i s = .next t) (herr : t.status.err = true) :
    ClearedOn (writeSet i) t.res := by
  rw [eq_runBody_of_exec h] at herr ⊢
  obtain ⟨u, -, -, hok, -⟩ | ⟨k, info, u, -, -, -, hclean⟩ := runBody_cases i _ s (bodyOf_frame i _)
  · rw [hok] at herr
    cases herr
  · exact fun m hm => hclean m (List.mem_append_left _ hm)

/-! ### `MATCH` and `WRAP` -/

/-- Step 2 of 30_encoding.md R92 clears `MATCH` and `WRAP`, whatever the write set. -/
theorem startCommand_clears_flags (i : Instr) (s : State) : ClearedOn [.matched, .wrap] (startCommand i s).res := by
  refine fun m hm => clearSet_keeps_cleared (writeSet i) _ m ?_
  obtain rfl | rfl : m = .matched ∨ m = .wrap := by simpa using hm
  · rfl
  · rfl

/-- No body but that of `VERIFY` changes a result outside the write set of `HOTP`: that of `CLEAR`, whose write set is the
whole bank, writes nothing. -/
theorem bodyOf_frame_hotpSet {i : Instr} (hi : i ≠ .verify) (s : State) : EndFrame hotpSet s (bodyOf i s) := by
  cases i with
  | encode => exact (encodeBody_frame s).mono (by decide)
  | hmac => exact (hmacBody_frame s).mono (by decide)
  | hotp => exact hotpBody_frame s
  | verify => exact absurd rfl hi
  | clear => exact BodyFrame.refl hotpSet s

/-- A result that is at its reset value when the body starts, and that the body does not write, is so at the end: completion
keeps it, and error entry can only clear it. -/
theorem finish_cleared {ws vs : List ResMember} {s : State} {e : CmdEnd} {m : ResMember} (hf : EndFrame vs s e) (hm : m ∉ vs)
    (hs : ResultBank.sameAt m s.res ResultBank.cleared) : ResultBank.sameAt m (finish ws e).res ResultBank.cleared := by
  cases e with
  | finished t => exact sameAt_trans (sameAt_symm (hf.res m hm)) hs
  | raised k info t => exact clearSet_keeps_cleared ws _ m (sameAt_trans (sameAt_symm (hf.res m hm)) hs)

theorem exec_clears_flags {i : Instr} {s t : State} (h : exec i s = .next t) (hi : i ≠ .verify) :
    ClearedOn [.matched, .wrap] t.res := by
  rw [eq_runBody_of_exec h]
  intro m hm
  have hout : ∀ n ∈ [ResMember.matched, .wrap], n ∉ hotpSet := by decide
  exact finish_cleared (bodyOf_frame_hotpSet hi _) (hout m hm) (startCommand_clears_flags i s m hm)

/-! ### The statements -/

/-- Settles O21: completion discards the operands of every command word, legal or reserved. -/
theorem everyCommandDiscardsTheOperands : Obligations.EveryCommandDiscardsTheOperands := by
  intro w s t h
  exact (runCommand_completed w s t h).discarded

/-- Settles O22: the frame of a whole command, with each write set compared with the one written out in the statement; `MATCH`
and `WRAP` are cleared at the start and written by the body of `VERIFY` alone. -/
theorem everyCommandKeepsTheResultsOutsideItsWriteSet : Obligations.EveryCommandKeepsTheResultsOutsideItsWriteSet := by
  refine ⟨fun i s t h => ⟨?_, fun hi => ?_⟩, fun w r s t hw h => ?_⟩
  · refine (exec_kept h).mono ?_
    cases i <;> decide
  · have hclear := exec_clears_flags h hi
    exact ⟨hclear .matched (by decide), hclear .wrap (by decide)⟩
  · rw [runCommand_of_decode_error hw] at h
    cases h
    exact illegalCommand_res w s

/-- Settles O23: the start of a command and error entry both clear its write set. -/
theorem aFailedCommandLeavesItsWriteSetClean : Obligations.AFailedCommandLeavesItsWriteSetClean :=
  fun i s => ⟨startCommand_clears_writeSet i s, fun _ => exec_error_clears_writeSet⟩

end Sys2Proof.Machine

/-! PROOFS. The statements of 20_memory.md on the register port: the address map (R63), and the reserved offsets and one-way
registers (R65). -/

namespace Sys2Proof.Machine

open Sys2Proof

/-! ### Which register stands at an address -/

/-- The named registers stand below the code bytes, at 30 different offsets. -/
theorem regAt_word_of_mem_namedRegs (codeMax : Nat) {r : Reg} (hr : r ∈ namedRegs) : regAt codeMax r.word = some r := by
  have hlow : ∀ r ∈ namedRegs, ¬ 64 ≤ r.word.toNat := by decide
  have hfind : ∀ r ∈ namedRegs, namedRegs.find? (fun q => q.byteOffset == 4 * r.word.toNat) = some r := by decide
  rw [regAt_low codeMax (hlow r hr)]
  exact hfind r hr

/-- The reserved addresses below the code bytes: word 15, and the words from 31 on. -/
theorem namedRegs_find?_eq_none_iff {k : Nat} (hk : k < 64) :
    namedRegs.find? (fun r => r.byteOffset == 4 * k) = none ↔ k = 15 ∨ 31 ≤ k := by
  revert k
  decide

theorem regAt_eq_none_iff (codeMax : Nat) (w : BitVec 7) :
    regAt codeMax w = none ↔
      4 * w.toNat = 0x03C ∨ (0x07C ≤ 4 * w.toNat ∧ 4 * w.toNat ≤ 0x0FC) ∨ 0x100 + 4 * codeMax ≤ 4 * w.toNat := by
  by_cases hw : 64 ≤ w.toNat
  · rw [regAt, dif_pos hw, ite_eq_right_iff]
    simp only [reduceCtorEq, imp_false]
    omega
  · rw [regAt_low codeMax hw, namedRegs_find?_eq_none_iff (Nat.lt_of_not_le hw)]
    omega

/-! ### One-way registers -/

theorem readReg_of_wo {r : Reg} (h : r.access = .wo) (s : State) : readReg r s = 0 := by
  have hvalue : r.value s = 0 := by cases r <;> cases h <;> rfl
  rw [readReg, hvalue]
  exact BitVec.zero_and

theorem writeReg_of_ro {r : Reg} (h : r.access = .ro) (v : Word) (s : State) : writeReg r v s = s := by
  cases r <;> cases h <;> rfl

/-! ### The port at a register's address and at a reserved one -/

theorem portWrite_of_regAt {w : BitVec 7} {r : Reg} {s : State} (h : regAt s.params.codeMax w = some r) (v : Word) :
    portWrite w v s = writeReg r (v &&& r.bits) s := by
  rw [portWrite, h]

theorem portRead_of_reserved {w : BitVec 7} {s : State} (h : regAt s.params.codeMax w = none) : portRead w s = 0 := by
  rw [portRead, h]

theorem portWrite_of_reserved {w : BitVec 7} {s : State} (h : regAt s.params.codeMax w = none) (v : Word) :
    portWrite w v s = s := by
  rw [portWrite, h]

/-- A write is taken in the column "bits" of R63 alone: cutting the value to them beforehand changes nothing. -/
theorem portWrite_and_bits {w : BitVec 7} {r : Reg} {s : State} (h : regAt s.params.codeMax w = some r) (v : Word) :
    portWrite w (v &&& r.bits) s = portWrite w v s := by
  rw [portWrite_of_regAt h, portWrite_of_regAt h, BitVec.and_assoc, BitVec.and_self]

theorem portRead_of_wo {w : BitVec 7} {r : Reg} {s : State} (h : regAt s.params.codeMax w = some r) (hr : r.access = .wo) :
    portRead w s = 0 :=
  (portRead_of_regAt h).trans (readReg_of_wo hr s)

theorem portWrite_of_ro {w : BitVec 7} {r : Reg} {s : State} (h : regAt s.params.codeMax w = some r) (hr : r.access = .ro)
    (v : Word) : portWrite w v s = s :=
  (portWrite_of_regAt h v).trans (writeReg_of_ro hr _ s)

/-! ### The statements -/

/-- Settles O29: each row of the written table is a named register at its own byte offset with its access and bits; the code
bytes and the reserved offsets follow from the two halves of the address map. -/
theorem theAddressMapIsTheTable : Obligations.TheAddressMapIsTheTable := by
  refine ⟨fun codeMax row hrow => ?_, fun codeMax j => ⟨regAt_code codeMax j j.isLt, rfl, rfl⟩, regAt_eq_none_iff,
    fun w v s r h => ⟨portRead_of_regAt h, (portWrite_and_bits h v).symm, portRead_of_wo h, (portWrite_of_ro h · v)⟩⟩
  have hreg : row.2.1 ∈ namedRegs ∧ row.2.1.byteOffset = row.1 ∧ row.2.1.access = row.2.2.1 ∧ row.2.1.bits = row.2.2.2 := by
    revert row
    decide
  obtain ⟨hmem, hoffset, haccess, hbits⟩ := hreg
  rw [← hoffset]
  exact ⟨regAt_word_of_mem_namedRegs codeMax hmem, haccess, hbits⟩

/-- Settles O30, from the port at a reserved address and at a one-way register. -/
theorem reservedAndOneWayRegisters : Obligations.ReservedAndOneWayRegisters :=
  fun _ v _ => ⟨fun h => ⟨portRead_of_reserved h, portWrite_of_reserved h v⟩,
    fun _ h => ⟨portRead_of_wo h, (portWrite_of_ro h · v)⟩⟩

end Sys2Proof.Machine

/-! PROOFS. The statements of 30_encoding.md: the legal command words (R93), the writes of `COUNTER` (R95) and of `CODE_LEN`,
`STEP` and `ALLOW` (R96, R97), and the pushes of key and token bytes (R99, R100). -/

namespace Sys2Proof.Machine

open Sys2Proof

/-! ### Legal command words -/

/-- `RSV` is 0 and `OPC` is 1 to 5: as a number, the word itself is 1 to 5. -/
theorem isLegalCommand_iff_toNat (w : Word) : Word.isLegalCommand w = true ↔ 1 ≤ w.toNat ∧ w.toNat ≤ 5 := by
  have hfields := fields_toNat w
  have hopc := (opcField w).isLt
  have hlegal : Word.isLegalCommand w = (rsvField w == 0 && 1 ≤ (opcField w).toNat && (opcField w).toNat ≤ 5) := rfl
  rw [hlegal]
  simp only [Bool.and_eq_true, beq_iff_eq, decide_eq_true_eq, BitVec.toNat_eq, BitVec.ofNat_eq_ofNat, BitVec.toNat_zero]
  omega

theorem mem_fiveWords_iff_toNat (w : Word) :
    w ∈ [0x00000001#32, 0x00000002#32, 0x00000003#32, 0x00000004#32, 0x00000005#32] ↔ 1 ≤ w.toNat ∧ w.toNat ≤ 5 := by
  simp only [List.mem_cons, List.not_mem_nil, or_false, BitVec.toNat_eq, BitVec.toNat_ofNat]
  omega

/-- Settles O2: the decoder's answer is `decode_ok_iff`, and both legality and the list of the five words say that the word is
a number from 1 to 5. -/
theorem onlyTheFiveWordsAreLegal : Obligations.OnlyTheFiveWordsAreLegal :=
  ⟨⟨rfl, rfl, rfl, rfl, rfl⟩,
    fun w => ⟨decode_ok_iff w, (isLegalCommand_iff_toNat w).trans (mem_fiveWords_iff_toNat w).symm⟩⟩

/-! ### The port at a register that carries all 32 bits -/

theorem portWrite_word_of_fullWidth {r : Reg} (hr : r ∈ namedRegs) (hbits : r.bits = 0xFFFFFFFF) (v : Word) (s : State) :
    portWrite r.word v s = writeReg r v s := by
  rw [portWrite_of_regAt (regAt_word_of_mem_namedRegs _ hr), hbits, and_allOnes32]

theorem portRead_word_of_fullWidth {r : Reg} (hr : r ∈ namedRegs) (hbits : r.bits = 0xFFFFFFFF) (s : State) :
    portRead r.word s = r.value s := by
  rw [portRead_of_regAt (regAt_word_of_mem_namedRegs _ hr), readReg, hbits, and_allOnes32]

theorem portWrite_counterLo (v : Word) (s : State) :
    portWrite Reg.counterLo.word v s = { s with ops := s.ops.writeCounterLo v } :=
  portWrite_word_of_fullWidth (by decide) rfl v s

theorem portWrite_counterHi (v : Word) (s : State) :
    portWrite Reg.counterHi.word v s = { s with ops := s.ops.writeCounterHi v } :=
  portWrite_word_of_fullWidth (by decide) rfl v s

/-! ### The halves of `COUNTER` -/

/-- A high half of 0 zero-extends the low half. -/
theorem joinHalves_zero (lo : Word) : joinHalves 0#32 lo = lo.setWidth 64 := by
  apply BitVec.eq_of_toNat_eq
  rw [joinHalves, BitVec.toNat_append, BitVec.toNat_setWidth_of_le (by decide), BitVec.toNat_zero, Nat.zero_shiftLeft,
    Nat.zero_or]

/-- Settles O36: each write joins the new half with the half held, and a read shows the half held. -/
theorem writingTheCounterSetsItsHalfAndItsFlag : Obligations.WritingTheCounterSetsItsHalfAndItsFlag := by
  refine fun s v => ⟨⟨_, portWrite_counterLo v s, rfl, loHalf_joinHalves _ _, hiHalf_joinHalves _ _, rfl⟩,
    ⟨_, portWrite_counterHi v s, rfl, hiHalf_joinHalves _ _, loHalf_joinHalves _ _, rfl⟩, fun hzero => ?_,
    portRead_word_of_fullWidth (by decide) rfl s, portRead_word_of_fullWidth (by decide) rfl s⟩
  have hhi : hiHalf s.ops.counter = 0 := by rw [hzero]; rfl
  rw [portWrite_counterLo, OperandBank.writeCounterLo, hhi]
  exact joinHalves_zero v

/-- Settles O38: the three registers carry all 32 bits of a write. -/
theorem writingTheScalarOperands : Obligations.WritingTheScalarOperands :=
  ⟨fun s v => ⟨portWrite_word_of_fullWidth (by decide) rfl v s, portWrite_word_of_fullWidth (by decide) rfl v s,
    portWrite_word_of_fullWidth (by decide) rfl v s⟩, rfl, rfl, rfl⟩

/-! ### Byte buffers -/

/-- `bs` pushed one by one to a buffer of capacity `cap` and its overflow flag. -/
def pushBytes (cap : Nat) (bs : Bytes) (buf : Bytes) (ovf : Bool) : Bytes × Bool :=
  bs.foldl (fun p b => pushByte cap b p.1 p.2) (buf, ovf)

theorem pushBytes_cons (cap : Nat) (b : Byte) (bs buf : Bytes) (ovf : Bool) :
    pushBytes cap (b :: bs) buf ovf = pushBytes cap bs (pushByte cap b buf ovf).1 (pushByte cap b buf ovf).2 := rfl

/-- Pushed bytes accumulate up to the capacity, and the flag tells whether one was dropped (30_encoding.md R99, R100). -/
theorem pushBytes_eq {cap : Nat} (bs : Bytes) {buf : Bytes} (ovf : Bool) (hfits : buf.length ≤ cap) :
    pushBytes cap bs buf ovf = ((buf ++ bs).take cap, ovf || decide (cap < buf.length + bs.length)) := by
  induction bs generalizing buf ovf with
  | nil => simp [pushBytes, List.take_of_length_le hfits, hfits]
  | cons b bs ih =>
    rw [pushBytes_cons, ih _ (pushByte_fits hfits)]
    obtain ⟨hroom, hpush⟩ | ⟨hfull, hpush⟩ := pushByte_cases cap b buf ovf
    · simp [hpush, Nat.add_assoc, Nat.add_comm 1]
    · have hlen : buf.length = cap := Nat.le_antisymm hfits hfull
      simp [hpush, hlen, List.take_left' hlen]

theorem pushByte_prefix (cap : Nat) (b : Byte) (buf : Bytes) (ovf : Bool) : buf <+: (pushByte cap b buf ovf).1 := by
  obtain ⟨-, hpush⟩ | ⟨-, hpush⟩ := pushByte_cases cap b buf ovf
  · rw [hpush]; exact List.prefix_append buf [b]
  · rw [hpush]

/-! ### Pushes at the port: bits 7:0 of the value alone count -/

/-- `s` with the key buffer and its overflow flag replaced. -/
def State.withKeyBuffer (s : State) (p : Bytes × Bool) : State := { s with ops := { s.ops with key := p.1, keyOvf := p.2 } }

/-- `s` with the token buffer and its overflow flag replaced. -/
def State.withTokenBuffer (s : State) (p : Bytes × Bool) : State := { s with ops := { s.ops with token := p.1, tokOvf := p.2 } }

theorem portWrite_keyPush (v : Word) (s : State) : portWrite Reg.keyPush.word v s =
    s.withKeyBuffer (pushByte s.params.keyMax (v.extractLsb' 0 8) s.ops.key s.ops.keyOvf) := by
  rw [portWrite_of_regAt (regAt_keyPush _), ← low8 v]
  rfl

theorem portWrite_tokenPush (v : Word) (s : State) : portWrite Reg.tokenPush.word v s =
    s.withTokenBuffer (pushByte s.params.codeMax (v.extractLsb' 0 8) s.ops.token s.ops.tokOvf) := by
  rw [portWrite_of_regAt (regAt_tokenPush _), ← low8 v]
  rfl

/-- A run of pushes changes the key buffer alone, as the same pushes to the buffer do. -/
theorem foldl_portWrite_keyPush (vs : List Word) (s : State) : vs.foldl (fun s v => portWrite Reg.keyPush.word v s) s =
    s.withKeyBuffer (pushBytes s.params.keyMax (vs.map (·.extractLsb' 0 8)) s.ops.key s.ops.keyOvf) := by
  rw [pushBytes, List.foldl_map]
  refine List.foldl_hom s.withKeyBuffer (init := (s.ops.key, s.ops.keyOvf)) fun p v => ?_
  exact portWrite_keyPush v (s.withKeyBuffer p)

/-- A run of pushes changes the token buffer alone, as the same pushes to the buffer do. -/
theorem foldl_portWrite_tokenPush (vs : List Word) (s : State) : vs.foldl (fun s v => portWrite Reg.tokenPush.word v s) s =
    s.withTokenBuffer (pushBytes s.params.codeMax (vs.map (·.extractLsb' 0 8)) s.ops.token s.ops.tokOvf) := by
  rw [pushBytes, List.foldl_map]
  refine List.foldl_hom s.withTokenBuffer (init := (s.ops.token, s.ops.tokOvf)) fun p v => ?_
  exact portWrite_tokenPush v (s.withTokenBuffer p)

/-- Of all writes to the idle block, only a push of `KEY_PUSH` touches the key, and it appends. -/
theorem key_prefix_portWrite (w : BitVec 7) (v : Word) (s : State) : s.ops.key <+: (portWrite w v s).ops.key := by
  obtain ⟨-, hacc⟩ | ⟨-, o, hops, ho⟩ := portWrite_cases w v s
  · rw [hacc, acceptCommand_ops]
  · rw [hops]
    obtain rfl | ⟨c, rfl⟩ | ⟨c, rfl⟩ | ⟨c, rfl⟩ | ⟨c, rfl⟩ | ⟨c, rfl⟩ | ⟨c, rfl⟩ | ⟨c, rfl⟩ := ho
    any_goals exact List.prefix_rfl
    exact pushByte_prefix s.params.keyMax (c.extractLsb' 0 8) s.ops.key s.ops.keyOvf

/-- Settles O39: the pushes are pushes to the key buffer, and no other write touches it. -/
theorem pushedKeyBytesAccumulateUpToTheCapacity : Obligations.PushedKeyBytesAccumulateUpToTheCapacity := by
  refine ⟨fun vs s hfits => ?_, key_prefix_portWrite⟩
  rw [foldl_portWrite_keyPush, pushBytes_eq _ _ hfits, List.length_map]
  rfl

/-- Settles O40: the pushes are pushes to the token buffer. -/
theorem pushedTokenBytesAccumulateUpToTheCapacity : Obligations.PushedTokenBytesAccumulateUpToTheCapacity := by
  intro vs s hfits
  rw [foldl_portWrite_tokenPush, pushBytes_eq _ _ hfits, List.length_map]
  rfl

end Sys2Proof.Machine

/-! PROOFS. The statements of 40_counter_codec.md: the counter encoding as a function (R120) and the command `ENCODE`
(R121). -/

namespace Sys2Proof.Machine

open Sys2Proof

/-! ### The counter encoding -/

theorem be64_getElem_toNat (c : Dword) (j : Fin 8) : (be64 c)[j].toNat = (c.toNat / 2 ^ (8 * (7 - j.val))) % 256 := by
  rw [be64_getElem, BitVec.extractLsb'_toNat, Nat.shiftRight_eq_div_pow]

theorem joinHalves_extractLsb' (c : Dword) : joinHalves (c.extractLsb' 32 32) (c.extractLsb' 0 32) = c := by
  rw [joinHalves, BitVec.extractLsb'_append_extractLsb'_eq_extractLsb' (by omega), BitVec.extractLsb'_eq_self]

/-- The counter whose encoding the string is: its two words of four bytes, most significant first. -/
def fromBe64 (e : Vector Byte 8) : Dword := joinHalves (fromBe32 e[0] e[1] e[2] e[3]) (fromBe32 e[4] e[5] e[6] e[7])

@[simp] theorem fromBe64_be64 (c : Dword) : fromBe64 (be64 c) = c := by
  rw [fromBe64, encHi_be64, encLo_be64, joinHalves_extractLsb']

theorem be64_injective : Function.Injective be64 := Function.LeftInverse.injective fromBe64_be64

theorem be64_zero : be64 0 = Vector.replicate 8 0 := by decide

/-- Settles O45, from the byte of each index and from the decoding that undoes the encoding. -/
theorem theCounterEncodingIsBigEndianAndInjective : Obligations.TheCounterEncodingIsBigEndianAndInjective :=
  ⟨be64_getElem_toNat, fun _ _ h => be64_injective h⟩

/-! ### `ENCODE` -/

/-- `ENCODE` has no check that could fail, encodes the counter and samples no time; its frame is that of every command. -/
theorem encode_next (s : State) : ∃ t, exec .encode s = .next t ∧ Succeeded (encode .encode) s t ∧
    t.res.enc = be64 s.ops.counter ∧ t.free.time = s.free.time := by
  have hbody : bodyOf .encode (startCommand .encode s) = encodeBody (startCommand .encode s) := rfl
  obtain ⟨hrun, hs⟩ := runBody_finished hbody
  exact ⟨_, (exec_eq .encode s).trans (congrArg _ hrun), hs, rfl, rfl⟩

/-- Where the column "bits" of R63 holds the whole word, a read shows the value as it is. -/
theorem readReg_of_fullWidth {r : Reg} (hbits : r.bits = 0xFFFFFFFF) (s : State) : readReg r s = r.value s := by
  rw [readReg, hbits, and_allOnes32]

theorem readReg_encHi_of_enc {s : State} {c : Dword} (h : s.res.enc = be64 c) : readReg .encHi s = c.extractLsb' 32 32 := by
  rw [readReg_of_fullWidth rfl, ← encHi_be64, ← h]
  rfl

theorem readReg_encLo_of_enc {s : State} {c : Dword} (h : s.res.enc = be64 c) : readReg .encLo s = c.extractLsb' 0 32 := by
  rw [readReg_of_fullWidth rfl, ← encLo_be64, ← h]
  rfl

/-- Settles O11: what `ENCODE` writes, with the frame and the cleared flags of every command but `VERIFY`; completion put the
counter at its default 0, which a second `ENCODE` encodes. -/
theorem encodeEncodesTheCounter : Obligations.EncodeEncodesTheCounter := by
  intro s
  obtain ⟨t, hnext, hs, henc, htime⟩ := encode_next s
  obtain ⟨u, hnext', -, henc', -⟩ := encode_next t
  have hflags := exec_clears_flags hnext (by decide)
  have hmatched : t.res.matched = false := hflags .matched (by decide)
  have hwrap : t.res.wrap = false := hflags .wrap (by decide)
  have hcounter : t.ops.counter = 0 := by rw [hs.completed.discarded]; rfl
  exact ⟨t, u, hnext, hs, status_ok hs hmatched hwrap, henc, readReg_encHi_of_enc henc, readReg_encLo_of_enc henc,
    hmatched, hwrap, exec_kept hnext, htime, hnext', by rw [henc', hcounter, be64_zero]⟩

end Sys2Proof.Machine

/-! PROOFS. The statements of 41_hmac_sha1.md: the command `HMAC` (R141). -/

namespace Sys2Proof.Machine

open Sys2Proof

/-! ### The checks of `HMAC` -/

theorem hmacMiss_of_key_eq_nil {o : OperandBank} (h : o.key = []) : hmacMiss o = 0x00000100 := by
  rw [hmacMiss, h]
  rfl

theorem hmacMiss_of_key_ne_nil {o : OperandBank} (h : o.key ≠ []) : hmacMiss o = 0 := by
  have hlength : (o.key.length == 0) = false := by simpa using h
  rw [hmacMiss, hlength]
  rfl

theorem hmacBad_of_keyOvf {o : OperandBank} (h : o.keyOvf = true) : hmacBad o = 0x00010000 := by
  rw [hmacBad, h]
  rfl

theorem hmacBad_of_not_keyOvf {o : OperandBank} (h : o.keyOvf = false) : hmacBad o = 0 := by
  rw [hmacBad, h]
  rfl

/-- The body checks the operands held when the command was accepted: its start clears results and leaves operands. -/
theorem bodyOf_hmac_startCommand (s : State) : bodyOf .hmac (startCommand .hmac s) =
    checked (hmacMiss s.ops) (hmacBad s.ops) hmacCompute (startCommand .hmac s) := rfl

/-! ### How `HMAC` ends -/

/-- The checks pass: `HMAC` digests the `ENC` it was accepted with, since its start clears `DIGEST` alone, and samples no
time. -/
theorem hmac_next_of_ready {s : State} (h : HmacReady s) : ∃ t, exec .hmac s = .next t ∧ Succeeded (encode .hmac) s t ∧
    t.res.digest = hmacSha1 s.ops.key s.res.enc.toList ∧ t.free.time = s.free.time := by
  have hbody := (bodyOf_hmac_startCommand s).trans
    (checked_ok (hmacMiss_of_key_ne_nil h.key) (hmacBad_of_not_keyOvf h.keyOvf))
  obtain ⟨hrun, hs⟩ := runBody_finished hbody
  exact ⟨_, (exec_eq .hmac s).trans (congrArg _ hrun), hs, rfl, rfl⟩

/-- The key is missing. -/
theorem hmac_next_of_key_eq_nil {s : State} (h : s.ops.key = []) : ∃ t, exec .hmac s = .next t ∧
    Failed (encode .hmac) (writeSet .hmac) 0x00000101 s t ∧ statusWord t = 0x00000006 ∧ t.free.time = s.free.time := by
  have hmiss := hmacMiss_of_key_eq_nil h
  have hbody := (bodyOf_hmac_startCommand s).trans (checked_miss (by rw [hmiss]; decide))
  have herr : errWord .missingParameter (hmacMiss s.ops) = 0x00000101 := by rw [hmiss]; rfl
  exact herr ▸ raised_next hbody

/-- The key is there but overflowed its buffer. -/
theorem hmac_next_of_keyOvf {s : State} (h : s.ops.key ≠ []) (hovf : s.ops.keyOvf = true) : ∃ t, exec .hmac s = .next t ∧
    Failed (encode .hmac) (writeSet .hmac) 0x00010002 s t ∧ statusWord t = 0x00000006 ∧ t.free.time = s.free.time := by
  have hbad := hmacBad_of_keyOvf hovf
  have hbody := (bodyOf_hmac_startCommand s).trans
    (checked_bad (hmacMiss_of_key_ne_nil h) (by rw [hbad]; decide))
  have herr : errWord .invalidParameter (hmacBad s.ops) = 0x00010002 := by rw [hbad]; rfl
  exact herr ▸ raised_next hbody

/-- Settles O12: the three ends of `HMAC`; when it succeeds, `ENC`, the other results and the cleared flags follow from the
frame of every command but `VERIFY`. -/
theorem hmacComputesTheDigestOrReportsTheKey : Obligations.HmacComputesTheDigestOrReportsTheKey := by
  refine fun s => ⟨fun hready => ?_, hmac_next_of_key_eq_nil, hmac_next_of_keyOvf⟩
  obtain ⟨t, hnext, hs, hdigest, htime⟩ := hmac_next_of_ready hready
  have hkept := exec_kept hnext
  have henc : s.res.enc = t.res.enc := hkept .enc (by decide)
  have hflags := exec_clears_flags hnext (by decide)
  have hmatched : t.res.matched = false := hflags .matched (by decide)
  have hwrap : t.res.wrap = false := hflags .wrap (by decide)
  exact ⟨t, hnext, hs, status_ok hs hmatched hwrap, hdigest, henc.symm, hmatched, hwrap, hkept, htime⟩

end Sys2Proof.Machine

/-! PROOFS. The statements of 42_hotp.md: dynamic truncation and the code value as functions (R161, R163), and the command
`HOTP` with its checks and its quirk (R166 to R168). -/

namespace Sys2Proof.Machine

open Sys2Proof

/-! ### Dynamic truncation -/

theorem dtOffset_toNat (d : Vector Byte 20) : (dtOffset d).toNat = d[19].toNat % 16 := by
  have hmask : d[19].toNat &&& 15 = d[19].toNat % 16 := Nat.and_two_pow_sub_one_eq_mod d[19].toNat 4
  rw [dtOffset, BitVec.toNat_setWidth, BitVec.toNat_and]
  exact (congrArg (· % 16) hmask).trans (Nat.mod_mod _ 16)

/-- The read is inside the 20 bytes for every offset (42_hotp.md R162), so the default of `getD` is never used. -/
theorem dtByte_eq_getD (d : Vector Byte 20) (o : BitVec 4) (k : Fin 4) : dtByte d o k = d.toList.getD (o.toNat + k.val) 0 := by
  have hlt : o.toNat + k.val < d.toList.length := by simp; omega
  rw [List.getD_eq_getElem _ _ hlt, Vector.getElem_toList, dtByte]

theorem toNat_and_0x7F (b : Byte) : (b &&& 0x7F).toNat = b.toNat % 128 := by
  rw [BitVec.toNat_and]
  exact Nat.and_two_pow_sub_one_eq_mod b.toNat 7

/-- A byte shifted by up to 24 stays inside a word. -/
theorem toNat_setWidth_shiftLeft (b : Byte) {n : Nat} (hn : n ≤ 24) : ((b.setWidth 32 : Word) <<< n).toNat = b.toNat <<< n := by
  have hlt : b.toNat <<< n < 2 ^ 32 :=
    calc b.toNat <<< n < 2 ^ (8 + n) := Nat.shiftLeft_lt b.isLt
      _ ≤ 2 ^ 32 := Nat.pow_le_pow_right (by decide) (by omega)
  rw [BitVec.toNat_shiftLeft, BitVec.toNat_setWidth_of_le (by decide), Nat.mod_eq_of_lt hlt]

/-- Shifted into their places and joined by `|`, four bytes are the word that has them in string order. -/
theorem shiftLeft_or_eq_fromBe32 (a b c d : Byte) :
    ((a.setWidth 32 : Word) <<< 24) ||| ((b.setWidth 32 : Word) <<< 16) ||| ((c.setWidth 32 : Word) <<< 8) |||
      (d.setWidth 32 : Word) = fromBe32 a b c d := by
  have hb := b.isLt
  have hc := c.isLt
  have hd := d.isLt
  apply BitVec.eq_of_toNat_eq
  rw [fromBe32_toNat, BitVec.or_assoc, BitVec.or_assoc]
  simp (disch := decide) only [BitVec.toNat_or, toNat_setWidth_shiftLeft, BitVec.toNat_setWidth_of_le]
  rw [← Nat.shiftLeft_add_eq_or_of_lt (i := 8) hd, ← Nat.shiftLeft_add_eq_or_of_lt (i := 16) (by omega),
    ← Nat.shiftLeft_add_eq_or_of_lt (i := 24) (by omega)]
  simp only [Nat.shiftLeft_eq]
  omega

/-- The four bytes as one word, whose bit 31 the mask on the first byte has cleared. -/
theorem dtTruncated_toNat (d : Vector Byte 20) : (dtTruncated d).toNat =
    (dtByte d (dtOffset d) 0).toNat % 128 * 2 ^ 24 + (dtByte d (dtOffset d) 1).toNat * 2 ^ 16 +
      (dtByte d (dtOffset d) 2).toNat * 2 ^ 8 + (dtByte d (dtOffset d) 3).toNat := by
  have h1 := (dtByte d (dtOffset d) 1).isLt
  have h2 := (dtByte d (dtOffset d) 2).isLt
  have h3 := (dtByte d (dtOffset d) 3).isLt
  simp only [dtTruncated, shiftLeft_or_eq_fromBe32]
  rw [BitVec.toNat_setWidth, fromBe32_toNat, toNat_and_0x7F]
  omega

/-- Settles O46, from the offset and the truncated value on numbers. -/
theorem dynamicTruncationTakesFourBytesAtTheOffset : Obligations.DynamicTruncationTakesFourBytesAtTheOffset := by
  intro d
  refine ⟨dtOffset_toNat d, ?_⟩
  simp only [dtTruncated_toNat, dtByte_eq_getD, dtOffset_toNat]
  rfl

/-! ### The code value -/

/-- Settles O47: a remainder by a million fits the 20 bits of `CODEVAL`. -/
theorem theCodeValueIsReducedModuloAMillion : Obligations.TheCodeValueIsReducedModuloAMillion := by
  intro t
  have hmod := codeValue_toNat t
  exact ⟨hmod, by omega⟩

/-! ### The checks of `HOTP` -/

theorem flagBit_eq_zero_iff {b : Bool} {n : Nat} (hn : n < 32) : flagBit b n = 0#32 ↔ b = false := by
  constructor
  · intro h
    simpa [h] using (flagBit_getLsbD b n n hn).symm
  · rintro rfl
    rfl

theorem flagBit_or_same_bit (a b : Bool) (n : Nat) : flagBit a n ||| flagBit b n = flagBit (a || b) n := by
  cases a with
  | false => exact BitVec.zero_or
  | true => cases b with
    | false => exact BitVec.or_zero
    | true => exact BitVec.or_self

/-- A flag whose Boolean decides `P`, as the obligations write it. -/
theorem flagBit_of_iff {b : Bool} {P : Prop} [Decidable P] (n : Nat) (h : b = true ↔ P) :
    flagBit b n = if P then BitVec.ofNat 32 (2 ^ n) else 0 :=
  if_congr h rfl rfl

/-- What is missing for `HOTP` (42_hotp.md R167, R168): an absent counter and the quirk's counter 0 share one bit. -/
theorem hotpMiss_eq (p : Params) (o : OperandBank) : hotpMiss p o =
    (if o.key = [] then 0x00000100 else 0) |||
      (if o.cntValid = false ∨ (p.zeroCounterMissing = true ∧ o.counter = 0) then 0x00000200 else 0) := by
  have hkey : (o.key.length == 0) = true ↔ o.key = [] := by simp
  have hcounter : (!o.cntValid || (p.zeroCounterMissing && o.counter == 0)) = true ↔
      o.cntValid = false ∨ (p.zeroCounterMissing = true ∧ o.counter = 0) := by simp
  rw [hotpMiss, BitVec.or_assoc, flagBit_or_same_bit, flagBit_of_iff _ hkey, flagBit_of_iff _ hcounter]
  rfl

/-- What is invalid for `HOTP` (42_hotp.md R167). -/
theorem hotpBad_eq (p : Params) (o : OperandBank) : hotpBad p o =
    (if o.keyOvf = true then 0x00010000 else 0) ||| (if p.codeMax < o.codeLen.toNat then 0x00080000 else 0) := by
  rw [hotpBad, flagBit_of_iff _ Iff.rfl, flagBit_of_iff _ decide_eq_true_iff]
  rfl

theorem hotpMiss_eq_zero_iff (p : Params) (o : OperandBank) : hotpMiss p o = 0 ↔
    o.key ≠ [] ∧ o.cntValid = true ∧ (p.zeroCounterMissing = true → o.counter ≠ 0) := by
  simp [hotpMiss, flagBit_eq_zero_iff, missKey, missCounter, and_assoc]

theorem hotpBad_eq_zero_iff (p : Params) (o : OperandBank) : hotpBad p o = 0 ↔
    o.keyOvf = false ∧ o.codeLen.toNat ≤ p.codeMax := by
  simp [hotpBad, flagBit_eq_zero_iff, badKey, badCodeLen]

/-- The body checks the operands held when the command was accepted: its start clears results and leaves operands. -/
theorem bodyOf_hotp_startCommand (s : State) : bodyOf .hotp (startCommand .hotp s) =
    checked (hotpMiss s.params s.ops) (hotpBad s.params s.ops) hotpCompute (startCommand .hotp s) := rfl

/-! ### How `HOTP` ends -/

/-- The checks pass: the six steps of `HOTP_FN` are stored, and no time is sampled. -/
theorem hotp_next_of_ready {s : State} (h : HotpReady s) : ∃ t, exec .hotp s = .next t ∧ Succeeded (encode .hotp) s t ∧
    t.res = (startCommand .hotp s).res.storeHotp (hotpFn s.ops.key s.ops.counter s.ops.codeLen.toNat) ∧
    t.free.time = s.free.time := by
  obtain ⟨t, hnext, hs, rfl⟩ := hotp_next h
  exact ⟨_, hnext, hs, rfl, rfl⟩

/-- Something is missing: all of it is reported in one error. -/
theorem hotp_next_of_missing {s : State}
    (h : s.ops.key = [] ∨ s.ops.cntValid = false ∨ (s.params.zeroCounterMissing = true ∧ s.ops.counter = 0)) :
    ∃ t, exec .hotp s = .next t ∧ Failed (encode .hotp) (writeSet .hotp)
      (0x00000001 ||| (if s.ops.key = [] then 0x00000100 else 0) |||
        (if s.ops.cntValid = false ∨ (s.params.zeroCounterMissing = true ∧ s.ops.counter = 0) then 0x00000200 else 0)) s t ∧
      statusWord t = 0x00000006 ∧ t.free.time = s.free.time := by
  have hmiss : hotpMiss s.params s.ops ≠ 0 := by
    intro hzero
    obtain ⟨hkey, hvalid, hquirk⟩ := (hotpMiss_eq_zero_iff _ _).mp hzero
    obtain hk | hv | ⟨hq, hc⟩ := h
    · exact hkey hk
    · simp [hvalid] at hv
    · exact hquirk hq hc
  have hnext := raised_next ((bodyOf_hotp_startCommand s).trans (checked_miss hmiss))
  rwa [hotpMiss_eq, errWord, ← BitVec.or_assoc] at hnext

/-- Nothing is missing and something is invalid: all of it is reported in one error. -/
theorem hotp_next_of_invalid {s : State} (hkey : s.ops.key ≠ []) (hvalid : s.ops.cntValid = true)
    (hquirk : s.params.zeroCounterMissing = true → s.ops.counter ≠ 0)
    (h : s.ops.keyOvf = true ∨ s.params.codeMax < s.ops.codeLen.toNat) :
    ∃ t, exec .hotp s = .next t ∧ Failed (encode .hotp) (writeSet .hotp)
      (0x00000002 ||| (if s.ops.keyOvf = true then 0x00010000 else 0) |||
        (if s.params.codeMax < s.ops.codeLen.toNat then 0x00080000 else 0)) s t ∧
      statusWord t = 0x00000006 ∧ t.free.time = s.free.time := by
  have hmiss : hotpMiss s.params s.ops = 0 := (hotpMiss_eq_zero_iff _ _).mpr ⟨hkey, hvalid, hquirk⟩
  have hbad : hotpBad s.params s.ops ≠ 0 := by
    intro hzero
    obtain ⟨hovf, hfits⟩ := (hotpBad_eq_zero_iff _ _).mp hzero
    obtain ho | hlen := h
    · simp [hovf] at ho
    · omega
  have hnext := raised_next ((bodyOf_hotp_startCommand s).trans (checked_bad hmiss hbad))
  rwa [hotpBad_eq, errWord, ← BitVec.or_assoc] at hnext

/-- `CODE[j]` at and beyond `CODE_OUT_LEN` reads 0 (10_state.md R33). -/
theorem readReg_code_of_length_le {s : State} {j : Fin 64} (h : s.res.code.length ≤ j.val) : readReg (.code j) s = 0 := by
  rw [readReg, Reg.value, List.getD_eq_default _ _ h]
  exact BitVec.zero_and

/-- Settles O13: the three ends of `HOTP`; when it succeeds, `TSTEP`, `NOWL` and the cleared flags follow from the frame of
every command but `VERIFY`. -/
theorem hotpComputesTheCodeOrReportsItsOperands : Obligations.HotpComputesTheCodeOrReportsItsOperands := by
  refine fun s => ⟨fun hready => ?_, fun hmissing => ?_, fun hkey hvalid hquirk hinvalid => ?_⟩
  · obtain ⟨t, hnext, hs, hres, htime⟩ := hotp_next_of_ready hready
    have hkept := exec_kept hnext
    have htstep : s.res.tstep = t.res.tstep := hkept .tstep (by decide)
    have hnowl : s.res.nowl = t.res.nowl := hkept .nowl (by decide)
    have hflags := exec_clears_flags hnext (by decide)
    have hmatched : t.res.matched = false := hflags .matched (by decide)
    have hwrap : t.res.wrap = false := hflags .wrap (by decide)
    have hcodeVal : t.res.codeVal.toNat = t.res.trunc.toNat % 1000000 := by
      rw [hres, storeHotp_codeVal, storeHotp_trunc, hotpFn_codeVal, codeValue_toNat]
    have hcode : t.res.code = render t.res.codeVal.toNat s.ops.codeLen.toNat := by
      rw [hres, storeHotp_code, storeHotp_codeVal, hotpFn_code]
    refine ⟨t, hnext, hs, status_ok hs hmatched hwrap, ?_, ?_, ?_, ?_, hcodeVal, hcode,
      fun j => readReg_code_of_length_le, hmatched, hwrap, htstep.symm, hnowl.symm, htime⟩
    · rw [hres, storeHotp_enc, hotpFn]
    · rw [hres, storeHotp_digest, hotpFn]
    · rw [hres, storeHotp_offset, storeHotp_digest, hotpFn]
    · rw [hres, storeHotp_trunc, storeHotp_digest, hotpFn]
  · obtain ⟨t, hnext, hfailed, hstatus, htime⟩ := hotp_next_of_missing hmissing
    exact ⟨t, hnext, hstatus, htime, hfailed⟩
  · obtain ⟨t, hnext, hfailed, hstatus, htime⟩ := hotp_next_of_invalid hkey hvalid hquirk hinvalid
    exact ⟨t, hnext, hstatus, htime, hfailed⟩

/-! ### Counter 0 -/

/-- Settles O14: without the quirk a written counter 0 passes the checks; with it, counter 0 is missing, written or not. -/
theorem counterZeroIsAcceptedUnlessTheQuirkIsBuiltIn : Obligations.CounterZeroIsAcceptedUnlessTheQuirkIsBuiltIn := by
  refine ⟨rfl, fun s hkey hzero => ⟨fun hq hvalid hovf hlen => ?_, fun hq => ?_⟩⟩
  · have hready : HotpReady s := ⟨hkey, hvalid, by simp [hq], hovf, hlen⟩
    obtain ⟨t, hnext, hs, hres, -⟩ := hotp_next_of_ready hready
    rw [hzero] at hres
    refine ⟨t, hnext, hs, ?_, by rw [hres, storeHotp_code]⟩
    rw [hres, storeHotp_enc, hotpFn, be64_zero]
  · obtain ⟨t, hnext, hfailed, -, -⟩ := hotp_next_of_missing (.inr (.inr ⟨hq, hzero⟩))
    rw [if_neg hkey, if_pos (.inr ⟨hq, hzero⟩)] at hfailed
    exact ⟨t, hnext, hfailed⟩

end Sys2Proof.Machine

/-! PROOFS. The statements of 43_totp_verify.md: the time step index and the window as functions (R181, R183), and the command
`VERIFY` with its checks, its quirk and its determinism (R186, R188, R192). -/

namespace Sys2Proof.Machine

open Sys2Proof

/-! ### The time step index -/

/-- On numbers, the index is the natural quotient (43_totp_verify.md R181). -/
theorem tstepFn_toNat (n : Dword) (s : Word) : (tstepFn n s).toNat = n.toNat / s.toNat := by
  rw [tstepFn, BitVec.toNat_udiv, BitVec.toNat_setWidth_of_le (by decide)]

/-! ### The counters of the window -/

theorem window_zero (t : Dword) (a : Word) : window t a 0 = t - a.setWidth 64 := BitVec.add_zero _

theorem window_succ (t : Dword) (a : Word) (k : Nat) : window t a (k + 1) = window t a k + 1 := by
  rw [window, window, BitVec.ofNat_add, BitVec.add_assoc]
  rfl

theorem window_middle (t : Dword) (a : Word) : window t a a.toNat = t := by
  rw [window, BitVec.ofNat_toNat, BitVec.sub_add_cancel]

theorem window_last (t : Dword) (a : Word) : window t a (2 * a.toNat) = t + a.setWidth 64 := by
  rw [window, Nat.two_mul, BitVec.ofNat_add, BitVec.ofNat_toNat, ← BitVec.add_assoc, BitVec.sub_add_cancel]

/-- The window has fewer than 2^64 counters. -/
theorem window_injective_on {t : Dword} {a : Word} {j k : Nat} (hj : j ≤ 2 * a.toNat) (hk : k ≤ 2 * a.toNat)
    (h : window t a j = window t a k) : j = k := by
  have ha := a.isLt
  have hnat := congrArg BitVec.toNat h
  rw [window_toNat, window_toNat] at hnat
  omega

theorem window_eq_zero_iff (t : Dword) (a : Word) (k : Nat) :
    window t a k = 0 ↔ (t.toNat + (2 ^ 64 - a.toNat) + k) % 2 ^ 64 = 0 := by
  rw [← window_toNat]
  exact BitVec.toNat_eq

theorem windowWraps_iff (t : Dword) (a : Word) :
    windowWraps t a = true ↔ t.toNat < a.toNat ∨ 2 ^ 64 - 1 < t.toNat + a.toNat := by
  rw [windowWraps, Bool.or_eq_true, decide_eq_true_iff, decide_eq_true_iff, gt_iff_lt]

/-- Counter 0 is in the window only at its lower end or beyond a wrap (43_totp_verify.md R188). -/
theorem le_or_wraps_of_window_eq_zero {t : Dword} {a : Word} {k : Nat} (hk : k ≤ 2 * a.toNat) (h : window t a k = 0) :
    t.toNat ≤ a.toNat ∨ windowWraps t a = true := by
  have ht := t.isLt
  have ha := a.isLt
  rw [window_eq_zero_iff] at h
  rw [windowWraps_iff]
  omega

/-- Settles O54: the formula gives the order and the ends, and the window on numbers gives the rest. -/
theorem theWindowAscendsAndVisitsEachCounterOnce : Obligations.TheWindowAscendsAndVisitsEachCounterOnce := by
  intro t a
  have ht := t.isLt
  have ha := a.isLt
  refine ⟨fun k => rfl, window_zero t a, window_succ t a, window_middle t a, window_last t a,
    fun j k => window_injective_on, ?_, ?_, ?_⟩
  · intro hlow hhigh k hk
    rw [window_toNat]
    omega
  · intro hlow
    simp only [window_toNat, window_eq_zero_iff]
    exact ⟨fun k hk => by omega, by omega⟩
  · intro hhigh
    rw [window_toNat, window_eq_zero_iff]
    omega

/-! ### The checks of `VERIFY` -/

/-- What is missing for `VERIFY` (43_totp_verify.md R186). -/
theorem verifyMiss_eq (o : OperandBank) : verifyMiss o =
    (if o.key = [] then 0x00000100 else 0) ||| (if o.token = [] then 0x00000400 else 0) := by
  have hkey : (o.key.length == 0) = true ↔ o.key = [] := by simp
  have htoken : (o.token.length == 0) = true ↔ o.token = [] := by simp
  rw [verifyMiss, flagBit_of_iff _ hkey, flagBit_of_iff _ htoken]
  rfl

/-- What is invalid for `VERIFY` (43_totp_verify.md R186). -/
theorem verifyBad_eq (o : OperandBank) : verifyBad o =
    (if o.keyOvf = true then 0x00010000 else 0) ||| (if o.tokOvf = true then 0x00020000 else 0) |||
      (if o.step = 0 then 0x00040000 else 0) := by
  rw [verifyBad, flagBit_of_iff _ Iff.rfl, flagBit_of_iff _ Iff.rfl, flagBit_of_iff _ beq_iff_eq]
  rfl

theorem verifyMiss_eq_zero_iff (o : OperandBank) : verifyMiss o = 0 ↔ o.key ≠ [] ∧ o.token ≠ [] := by
  simp [verifyMiss, flagBit_eq_zero_iff, missKey, missToken]

theorem verifyBad_eq_zero_iff (o : OperandBank) : verifyBad o = 0 ↔ o.keyOvf = false ∧ o.tokOvf = false ∧ o.step ≠ 0 := by
  simp [verifyBad, flagBit_eq_zero_iff, badKey, badToken, badStep, and_assoc]

/-- The body checks the operands held when the command was accepted: its start clears results and leaves operands. -/
theorem bodyOf_verify_startCommand (s : State) : bodyOf .verify (startCommand .verify s) =
    checked (verifyMiss s.ops) (verifyBad s.ops) verifyCompute (startCommand .verify s) := rfl

/-! ### How `VERIFY` fails -/

/-- The write set of `VERIFY` is the whole result bank. -/
theorem Failed.res_cleared {w e : Word} {s t : State} (h : Failed w (writeSet .verify) e s t) : t.res = ResultBank.cleared :=
  ext_of_sameAt fun m => h.clean m (List.mem_append_left _ (mem_writeSet_verify m))

/-- Something is missing: all of it is reported in one error. -/
theorem verify_next_of_missing {s : State} (h : s.ops.key = [] ∨ s.ops.token = []) :
    ∃ t, exec .verify s = .next t ∧ Failed (encode .verify) (writeSet .verify)
      (0x00000001 ||| (if s.ops.key = [] then 0x00000100 else 0) ||| (if s.ops.token = [] then 0x00000400 else 0)) s t ∧
      statusWord t = 0x00000006 ∧ t.free.time = s.free.time := by
  have hmiss : verifyMiss s.ops ≠ 0 := by
    intro hzero
    obtain ⟨hkey, htoken⟩ := (verifyMiss_eq_zero_iff _).mp hzero
    exact h.elim hkey htoken
  have hnext := raised_next ((bodyOf_verify_startCommand s).trans (checked_miss hmiss))
  rwa [verifyMiss_eq, errWord, ← BitVec.or_assoc] at hnext

/-- Nothing is missing and something is invalid: all of it is reported in one error. -/
theorem verify_next_of_invalid {s : State} (hkey : s.ops.key ≠ []) (htoken : s.ops.token ≠ [])
    (h : s.ops.keyOvf = true ∨ s.ops.tokOvf = true ∨ s.ops.step = 0) :
    ∃ t, exec .verify s = .next t ∧ Failed (encode .verify) (writeSet .verify)
      (0x00000002 ||| (if s.ops.keyOvf = true then 0x00010000 else 0) |||
        (if s.ops.tokOvf = true then 0x00020000 else 0) ||| (if s.ops.step = 0 then 0x00040000 else 0)) s t ∧
      statusWord t = 0x00000006 ∧ t.free.time = s.free.time := by
  have hmiss : verifyMiss s.ops = 0 := (verifyMiss_eq_zero_iff _).mpr ⟨hkey, htoken⟩
  have hbad : verifyBad s.ops ≠ 0 := by
    intro hzero
    obtain ⟨hkeyOvf, htokOvf, hstep⟩ := (verifyBad_eq_zero_iff _).mp hzero
    obtain hk | ht | hs := h
    · simp [hkeyOvf] at hk
    · simp [htokOvf] at ht
    · exact hstep hs
  have hnext := raised_next ((bodyOf_verify_startCommand s).trans (checked_bad hmiss hbad))
  rwa [verifyBad_eq, errWord, ← BitVec.or_assoc, ← BitVec.or_assoc] at hnext

/-- Settles O17: an error raised by the checks leaves the bank cleared and samples no time. -/
theorem verifyChecksItsOperandsInOrder : Obligations.VerifyChecksItsOperandsInOrder := by
  refine fun s => ⟨fun hmissing => ?_, fun hkey htoken hinvalid => ?_⟩
  · obtain ⟨t, hnext, hfailed, hstatus, htime⟩ := verify_next_of_missing hmissing
    exact ⟨t, hnext, hfailed.res_cleared, htime, hstatus, hfailed⟩
  · obtain ⟨t, hnext, hfailed, hstatus, htime⟩ := verify_next_of_invalid hkey htoken hinvalid
    exact ⟨t, hnext, hfailed.res_cleared, htime, hstatus, hfailed⟩

theorem verifyReady_of_checks {s : State} (hmiss : verifyMiss s.ops = 0) (hbad : verifyBad s.ops = 0) : VerifyReady s := by
  obtain ⟨hkey, htoken⟩ := (verifyMiss_eq_zero_iff _).mp hmiss
  obtain ⟨hkeyOvf, htokOvf, hstep⟩ := (verifyBad_eq_zero_iff _).mp hbad
  exact ⟨hkey, htoken, hkeyOvf, htokOvf, hstep⟩

/-- A failed check, whichever it is, ends `VERIFY` before the time is sampled. -/
theorem verify_next_of_not_ready {s : State} (h : ¬ VerifyReady s) :
    ∃ t e, exec .verify s = .next t ∧ Failed (encode .verify) (writeSet .verify) e s t ∧ t.free.time = s.free.time := by
  obtain ⟨-, hchecked⟩ | ⟨-, -, hchecked⟩ | ⟨hmiss, hbad, -⟩ :=
    checked_cases (verifyMiss s.ops) (verifyBad s.ops) verifyCompute (startCommand .verify s)
  · obtain ⟨t, hnext, hfailed, -, htime⟩ := raised_next ((bodyOf_verify_startCommand s).trans hchecked)
    exact ⟨t, _, hnext, hfailed, htime⟩
  · obtain ⟨t, hnext, hfailed, -, htime⟩ := raised_next ((bodyOf_verify_startCommand s).trans hchecked)
    exact ⟨t, _, hnext, hfailed, htime⟩
  · exact absurd (verifyReady_of_checks hmiss hbad) h

/-- Settles O53: the quotient on numbers; a step of 0 fails the checks. -/
theorem theTimeStepIsTheFloorOfTheQuotient : Obligations.TheTimeStepIsTheFloorOfTheQuotient := by
  refine ⟨fun n s _ => ?_, fun s hstep => ?_⟩
  · rw [tstepFn_toNat]
    exact ⟨rfl, Nat.div_le_self _ _⟩
  · obtain ⟨t, e, hnext, hfailed, htime⟩ := verify_next_of_not_ready fun h : VerifyReady s => h.step hstep
    exact ⟨t, hnext, hfailed.errFlag, hfailed.res_cleared, htime⟩

/-! ### How `VERIFY` ends when its checks pass -/

/-- The scan stopped at counter 0: its error is the end of the command (43_totp_verify.md R188). -/
theorem verify_next_of_zeroCounter {s : State} {k : Nat} (h : VerifyReady s)
    (hscan : verifyScan (usedTime s) s = .zeroCounter k) :
    ∃ t, exec .verify s = .next t ∧ Failed (encode .verify) (writeSet .verify) 0x00000201 s t := by
  have hbody := verify_body h
  rw [hscan] at hbody
  obtain ⟨hrun, hfailed⟩ := runBody_raised hbody
  exact ⟨_, (exec_eq .verify s).trans (congrArg _ hrun), hfailed⟩

/-- The scan found the token or came to the end of the window: `VERIFY` succeeds. -/
theorem verify_next_of_scan_finished {s u : State} (h : VerifyReady s)
    (hscan : scanResult (verifyScan (usedTime s) s) (latchTime (usedTime s) (sampleTime (startCommand .verify s))) =
      .finished u) :
    exec .verify s = .next (complete u) ∧ Succeeded (encode .verify) s (complete u) := by
  obtain ⟨hrun, hs⟩ := runBody_finished ((verify_body h).trans hscan)
  exact ⟨(exec_eq .verify s).trans (congrArg _ hrun), hs⟩

/-- Only the quirk can make the scan itself fail. -/
theorem verify_next_of_no_quirk {s : State} (h : VerifyReady s) (hquirk : s.params.zeroCounterMissing = false) :
    ∃ t, exec .verify s = .next t ∧ Succeeded (encode .verify) s t := by
  have hcases := scanFrom_cases (quirk := s.params.zeroCounterMissing) (key := s.ops.key) (token := s.ops.token)
    (t := tstepFn (usedTime s) s.ops.step) (a := s.ops.allow) (2 * s.ops.allow.toNat) 0
  obtain ⟨j, -, -, -, hscan⟩ | hscan | ⟨hq, -⟩ := hcases
  · exact ⟨_, verify_next_of_scan_finished h (congrArg (scanResult · _) hscan)⟩
  · exact ⟨_, verify_next_of_scan_finished h (congrArg (scanResult · _) hscan)⟩
  · rw [hquirk] at hq
    cases hq

/-- Settles O16: a scan whose earlier indexes pass reaches the counter 0 and stops there. -/
theorem verifyUnderTheQuirkStopsAtCounterZero : Obligations.VerifyUnderTheQuirkStopsAtCounterZero := by
  refine fun s hready => ⟨fun hquirk k hk hzero hbefore => ?_, fun k => le_or_wraps_of_window_eq_zero,
    verify_next_of_no_quirk hready⟩
  have hscan : verifyScan (usedTime s) s = .zeroCounter k :=
    (scan_run hk fun j hj => ⟨fun _ => (hbefore j hj).1, (hbefore j hj).2⟩).trans (scanFrom_zeroCounter _ hquirk hzero)
  obtain ⟨t, hnext, hfailed⟩ := verify_next_of_zeroCounter hready hscan
  exact ⟨t, hnext, hfailed, hfailed.res_cleared⟩

/-! ### Two runs of `VERIFY` -/

/-- Two bodies end alike: with the same result bank, or with the same error. -/
inductive EndsAlike : CmdEnd → CmdEnd → Prop
  | finished {u u' : State} (h : u.res = u'.res) : EndsAlike (.finished u) (.finished u')
  | raised (k : ErrKind) (info : Word) (u u' : State) : EndsAlike (.raised k info u) (.raised k info u')

theorem checked_endsAlike (miss bad : Word) {f : State → CmdEnd} {s s' : State} (h : EndsAlike (f s) (f s')) :
    EndsAlike (checked miss bad f s) (checked miss bad f s') := by
  by_cases hmiss : miss = 0
  · by_cases hbad : bad = 0
    · rwa [checked_ok hmiss hbad, checked_ok hmiss hbad]
    · rw [checked_bad hmiss hbad, checked_bad hmiss hbad]
      exact .raised _ _ _ _
  · rw [checked_miss hmiss, checked_miss hmiss]
    exact .raised _ _ _ _

theorem scanResult_endsAlike (e : ScanEnd) {s s' : State} (h : s.res = s'.res) :
    EndsAlike (scanResult e s) (scanResult e s') := by
  cases e with
  | found out k => exact .finished (congrArg (fun r => { r.storeHotp out with matched := true }) h)
  | exhausted out k => exact .finished (congrArg (·.storeHotp out) h)
  | zeroCounter k => exact .raised _ _ _ _

/-- Nothing of the result bank before `VERIFY` is left when its body starts. -/
theorem startCommand_verify_res (s : State) : (startCommand .verify s).res = ResultBank.cleared := clearSet_verify _

theorem statusWord_eq_of_completed {w w' : Word} {s s' t t' : State} (h : Completed w s t) (h' : Completed w' s' t')
    (herr : t.status.err = t'.status.err) (hres : t.res = t'.res) : statusWord t = statusWord t' := by
  rw [statusWord_completed h, statusWord_completed h', herr, hres]

/-- What the host reads after `VERIFY` is decided by how its body ends. -/
theorem verify_next_alike {s s' : State}
    (h : EndsAlike (bodyOf .verify (startCommand .verify s)) (bodyOf .verify (startCommand .verify s'))) :
    ∃ t t', exec .verify s = .next t ∧ exec .verify s' = .next t' ∧
      t.res = t'.res ∧ t.err = t'.err ∧ statusWord t = statusWord t' := by
  refine ⟨_, _, exec_eq .verify s, exec_eq .verify s', ?_⟩
  generalize hbody : bodyOf .verify (startCommand .verify s) = e at h
  generalize hbody' : bodyOf .verify (startCommand .verify s') = e' at h
  cases h with
  | finished hres =>
    obtain ⟨hrun, hs⟩ := runBody_finished hbody
    obtain ⟨hrun', hs'⟩ := runBody_finished hbody'
    rw [hrun, hrun']
    exact ⟨hres, hs.errWord.trans hs'.errWord.symm,
      statusWord_eq_of_completed hs.completed hs'.completed (hs.errFlag.trans hs'.errFlag.symm) hres⟩
  | raised k info u u' =>
    obtain ⟨hrun, hf⟩ := runBody_raised hbody
    obtain ⟨hrun', hf'⟩ := runBody_raised hbody'
    rw [hrun, hrun']
    exact ⟨hf.res_cleared.trans hf'.res_cleared.symm, rfl, (status_failed hf).trans (status_failed hf').symm⟩

/-- Settles O27: the checks, the scan and the latched time are functions of the operands and the time used. -/
theorem verifyDependsOnItsOperandsAlone : Obligations.VerifyDependsOnItsOperandsAlone := by
  intro s s' hparams hkey hkeyOvf htoken htokOvf hstep hallow htime
  have hmiss : verifyMiss s.ops = verifyMiss s'.ops := by rw [verifyMiss, verifyMiss, hkey, htoken]
  have hbad : verifyBad s.ops = verifyBad s'.ops := by rw [verifyBad, verifyBad, hkeyOvf, htokOvf, hstep]
  apply verify_next_alike
  rw [bodyOf_verify_startCommand, bodyOf_verify_startCommand, hmiss, hbad]
  apply checked_endsAlike
  have hscan : verifyScan (usedTime s) (sampleTime (startCommand .verify s)) =
      verifyScan (usedTime s') (sampleTime (startCommand .verify s')) := by
    simp only [verifyScan, sampleTime_params, sampleTime_ops, startCommand_params, startCommand_ops,
      hparams, hkey, htoken, hstep, hallow, htime]
  rw [verifyCompute, verifyCompute, verifyAt, verifyAt, usedTime_startCommand, usedTime_startCommand, hscan]
  apply scanResult_endsAlike
  simp only [latchTime_res, sampleTime_res, sampleTime_ops, startCommand_verify_res, startCommand_ops, hstep, hallow, htime]

end Sys2Proof.Machine

/-! PROOFS. The statement of 44_control.md on the reserved command words (R202). -/

namespace Sys2Proof.Machine

open Sys2Proof

/-- What the decoder rejects is every word but the five of 30_encoding.md R93. -/
theorem decode_error_of_forall_ne_encode {w : Word} (h : ∀ i, w ≠ encode i) : ∃ r, decode w = .error r := by
  cases hd : decode w with
  | ok i => exact absurd ((decode_ok_iff w i).mp hd) (h i)
  | error r => exact ⟨r, rfl⟩

/-- The results a reserved word leaves, as one clearing: its write set is empty, so only `MATCH` and `WRAP` are in it. -/
theorem illegalCommand_res_eq_clearSet (w : Word) (s : State) :
    (illegalCommand w s).res = s.res.clearSet [.matched, .wrap] := rfl

/-- A reserved word fails with code 3, no information bits and an empty write set (60_exceptions.md R214, R216). -/
theorem illegalCommand_failed {w : Word} {r : DecodeReject} (h : decode w = .error r) (s : State) :
    Failed w [] 0x00000003 s (illegalCommand w s) where
  completed := runCommand_completed w s _ (runCommand_of_decode_error h s)
  errFlag := rfl
  errWord := rfl
  clean := by
    rw [illegalCommand_res_eq_clearSet]
    exact clearSet_clears [.matched, .wrap] s.res
  kept := by
    rw [illegalCommand_res_eq_clearSet]
    exact clearSet_kept [.matched, .wrap] s.res

@[simp] theorem illegalCommand_free (w : Word) (s : State) : (illegalCommand w s).free = s.free := rfl

/-- Settles O20: the decoder rejects every word but the five, and what it rejects is answered by `illegalCommand`. -/
theorem aReservedWordIsReportedAndComputesNothing : Obligations.AReservedWordIsReportedAndComputesNothing := by
  intro s w hencode hhmac hhotp hverify hclear
  have hne : ∀ i, w ≠ encode i := by
    intro i
    cases i with
    | encode => exact hencode
    | hmac => exact hhmac
    | hotp => exact hhotp
    | verify => exact hverify
    | clear => exact hclear
  obtain ⟨r, hr⟩ := decode_error_of_forall_ne_encode hne
  have hfailed := illegalCommand_failed hr s
  exact ⟨_, runCommand_of_decode_error hr s, hfailed, status_failed hfailed, by rw [illegalCommand_free]⟩

end Sys2Proof.Machine

/-! PROOFS. The statements of 10_state.md on `STATUS` and `ERR` after every command (R41, R43), and the invariant that reset
meets and every step keeps. -/

namespace Sys2Proof.Machine

open Sys2Proof

/-! ### `STATUS` and `ERR` after a command -/

/-- What 10_state.md R41 and R43 say of `STATUS.ERR`, `MATCH` and `ERR` once the command word `w` has completed. -/
structure ConsistentStatus (w : Word) (t : State) : Prop where
  errFlag : t.status.err = true ↔ errCode t.err ≠ 0
  matched : t.res.matched = true → w = encode .verify ∧ t.status.err = false
  shape : ErrShape t.err

theorem Succeeded.consistentStatus {w : Word} {s t : State} (h : Succeeded w s t)
    (hmatch : t.res.matched = true → w = encode .verify) : ConsistentStatus w t where
  errFlag := by rw [h.errFlag, h.errWord]; decide
  matched hm := ⟨hmatch hm, h.errFlag⟩
  shape := by rw [h.errWord]; exact errShape_zero

theorem Failed.consistentStatus {w e : Word} {ws : List ResMember} {s t : State} (h : Failed w ws e s t)
    (he : ErrShape e ∧ errCode e ≠ 0) : ConsistentStatus w t where
  errFlag := by rw [h.errFlag, h.errWord]; exact iff_of_true rfl he.2
  matched hm := by
    have hclear : t.res.matched = false := h.clean .matched (by simp)
    rw [hclear] at hm
    cases hm
  shape := by rw [h.errWord]; exact he.1

theorem exec_consistentStatus {i : Instr} {s t : State} (h : exec i s = .next t) : ConsistentStatus (encode i) t := by
  rw [eq_runBody_of_exec h]
  have hshape := body_shape i (startCommand i s) (startCommand_matched i s)
  cases hbody : bodyOf i (startCommand i s) with
  | finished u =>
    rw [hbody] at hshape
    obtain ⟨hrun, hs⟩ := runBody_finished hbody
    rw [hrun]
    exact hs.consistentStatus fun hm => congrArg encode (hshape hm)
  | raised k info u =>
    rw [hbody] at hshape
    obtain ⟨hrun, hf⟩ := runBody_raised hbody
    rw [hrun]
    exact hf.consistentStatus hshape

theorem runCommand_consistentStatus {w : Word} {s t : State} (h : runCommand w s = .next t) : ConsistentStatus w t := by
  obtain ⟨i, hdecode, hrun⟩ | ⟨r, hdecode, hrun⟩ := runCommand_cases w s
  · rw [(decode_ok_iff w i).mp hdecode]
    exact exec_consistentStatus (hrun ▸ h)
  · rw [hrun] at h
    cases h
    exact (illegalCommand_failed hdecode s).consistentStatus (shape_err _ (by decide))

/-- Settles O24: completion sets `BUSY` and `DONE`, and the way the command ended gives the rest. -/
theorem everyCommandEndsWithAConsistentStatus : Obligations.EveryCommandEndsWithAConsistentStatus := by
  intro w s t h
  have hc := runCommand_completed w s t h
  obtain ⟨herr, hmatched, hshape⟩ := runCommand_consistentStatus h
  exact ⟨hc.idle, hc.done, herr, hmatched, hshape⟩

/-! ### The parts of the invariant -/

/-- What `State.Inv` says of the operand bank: buffers inside their capacities, absent operands at their defaults. -/
structure OpsInv (p : Params) (o : OperandBank) : Prop where
  keyFits : o.key.length ≤ p.keyMax
  keyOvfFull : o.keyOvf = true → o.key.length = p.keyMax
  tokenFits : o.token.length ≤ p.codeMax
  tokOvfFull : o.tokOvf = true → o.token.length = p.codeMax
  counterAbsent : o.cntValid = false → o.counter = 0
  nowAbsent : o.nowValid = false → o.now = 0

theorem opsInv_default (p : Params) : OpsInv p OperandBank.default where
  keyFits := Nat.zero_le _
  keyOvfFull h := absurd h (by decide)
  tokenFits := Nat.zero_le _
  tokOvfFull h := absurd h (by decide)
  counterAbsent _ := rfl
  nowAbsent _ := rfl

theorem OpsInv.pushKey {p : Params} {o : OperandBank} (h : OpsInv p o) (v : Word) : OpsInv p (o.pushKey p v) :=
  { h with keyFits := pushByte_fits h.keyFits, keyOvfFull := pushByte_full h.keyFits h.keyOvfFull }

theorem OpsInv.pushToken {p : Params} {o : OperandBank} (h : OpsInv p o) (v : Word) : OpsInv p (o.pushToken p v) :=
  { h with tokenFits := pushByte_fits h.tokenFits, tokOvfFull := pushByte_full h.tokenFits h.tokOvfFull }

theorem State.Inv.opsInv {s : State} (h : s.Inv) : OpsInv s.params s.ops :=
  ⟨h.keyFits, h.keyOvfFull, h.tokenFits, h.tokOvfFull, h.counterAbsent, h.nowAbsent⟩

theorem State.Inv.resInv {s : State} (h : s.Inv) : ResInv s.params.codeMax s.res :=
  ⟨h.codeFits, h.codeDigits, h.codeValReduced, h.codeRendered⟩

theorem State.Inv.codeMax {s : State} (h : s.Inv) : 6 ≤ s.params.codeMax := by
  have hwf := h.params
  simp only [Params.wf, Bool.and_eq_true, decide_eq_true_eq] at hwf
  omega

/-- `MATCH` and `WRAP` play no part in what is said of the code. -/
theorem ResInv.clearFlags {cm : Nat} {r : ResultBank} (h : ResInv cm r) : ResInv cm { r with matched := false, wrap := false } :=
  ⟨h.codeFits, h.codeDigits, h.codeValReduced, h.codeRendered⟩

/-! ### What keeps the invariant -/

/-- The invariant speaks of the block alone. -/
theorem SameBlock.inv {s t : State} (h : SameBlock t s) (hs : s.Inv) : t.Inv := by
  obtain ⟨params, ops, res, status, err, lastCmd, busyLeft, ⟨time, slots, reads⟩, port, replies⟩ := t
  obtain ⟨rfl, rfl, rfl, rfl, rfl, rfl, rfl, -⟩ := h
  exact { hs with }

theorem inv_applyReset {s : State} (h : s.params.wf = true) : (applyReset s).Inv :=
  { opsInv_default s.params, resInv_cleared s.params.codeMax with
    params := h
    busyCleared := fun hb => absurd hb (by simp)
    idleSettled := fun _ => rfl
    freshAfterReset := fun _ _ => ⟨rfl, rfl, rfl, rfl⟩
    errFlag := by rw [applyReset_status, applyReset_err]; decide
    errShape := errShape_zero
    matchMeansVerify := fun hm => absurd hm (by simp [ResultBank.cleared])
    failedClean := fun he => absurd he (by simp) }

/-- Steps 1 and 2 of 30_encoding.md R92 clear whatever the invariant ties to an error or a match. -/
theorem State.Inv.acceptCommand {s : State} (h : s.Inv) (w : Word) : (acceptCommand w s).Inv :=
  { h.opsInv, h.resInv.clearFlags with
    params := h.params
    busyCleared := fun _ => ⟨rfl, rfl, rfl, rfl, rfl⟩
    idleSettled := fun hb => absurd hb (by simp)
    freshAfterReset := fun hb => absurd hb (by simp)
    errFlag := by rw [acceptCommand_status, acceptCommand_err]; decide
    errShape := errShape_zero
    matchMeansVerify := fun hm => absurd hm (by simp)
    failedClean := fun he => absurd he (by simp) }

theorem State.Inv.withOps {s : State} (h : s.Inv) {o : OperandBank} (ho : OpsInv s.params o) : { s with ops := o }.Inv :=
  { ho, h with }

theorem State.Inv.portWrite {s : State} (h : s.Inv) (word : BitVec 7) (v : Word) : (portWrite word v s).Inv := by
  have ho := h.opsInv
  obtain ⟨-, hwrite⟩ | ⟨-, o, hwrite, hcases⟩ := portWrite_cases word v s
  · rw [hwrite]
    exact h.acceptCommand v
  · rw [hwrite]
    apply h.withOps
    obtain rfl | ⟨c, rfl⟩ | ⟨c, rfl⟩ | ⟨c, rfl⟩ | ⟨c, rfl⟩ | ⟨c, rfl⟩ | ⟨c, rfl⟩ | ⟨c, rfl⟩ := hcases
    · exact ho
    · exact { ho with counterAbsent := fun hc => absurd hc (by simp) }
    · exact { ho with nowAbsent := fun hn => absurd hn (by simp) }
    · exact { ho with }
    · exact { ho with }
    · exact { ho with }
    · exact ho.pushKey c
    · exact ho.pushToken c

/-- The code a command leaves, by the way its body ends. -/
theorem exec_resInv {i : Instr} {s t : State} (hs : s.Inv) (h : exec i s = .next t) : ResInv s.params.codeMax t.res := by
  rw [eq_runBody_of_exec h]
  have hend := body_inv i (startCommand i s) hs.codeMax hs.tokenFits (clearSet_inv i _ hs.resInv.clearFlags)
    (startCommand_matched i s)
  cases hbody : bodyOf i (startCommand i s) with
  | finished u =>
    rw [hbody] at hend
    rw [(runBody_finished hbody).1]
    exact hend.1
  | raised k info u =>
    rw [hbody] at hend
    obtain ⟨-, hres, -⟩ := hend
    rw [(runBody_raised hbody).1]
    exact clearSet_inv i _ hres

theorem runCommand_resInv {w : Word} {s t : State} (hs : s.Inv) (h : runCommand w s = .next t) :
    ResInv s.params.codeMax t.res := by
  obtain ⟨i, -, hrun⟩ | ⟨r, -, hrun⟩ := runCommand_cases w s
  · exact exec_resInv hs (hrun ▸ h)
  · rw [hrun] at h
    cases h
    exact hs.resInv.clearFlags

/-- A failed command's write set is clean (10_state.md R32). -/
theorem runCommand_failedClean {w : Word} {s t : State} (h : runCommand w s = .next t) (herr : t.status.err = true) {i : Instr}
    (hi : decode w = .ok i) : t.res.clearSet (writeSet i) = t.res := by
  have hexec : exec i s = .next t := by rwa [runCommand, hi] at h
  exact clearSet_eq_of_clearedOn (exec_error_clears_writeSet hexec herr)

theorem State.Inv.runCommand {w : Word} {s t : State} (hs : s.Inv) (h : runCommand w s = .next t) : t.Inv := by
  have hc := runCommand_completed w s t h
  obtain ⟨herr, hmatched, hshape⟩ := runCommand_consistentStatus h
  have hres : ResInv t.params.codeMax t.res := by rw [hc.params]; exact runCommand_resInv hs h
  have hops : OpsInv t.params t.ops := by rw [hc.discarded]; exact opsInv_default _
  exact { hops, hres with
    params := by rw [hc.params]; exact hs.params
    busyCleared := fun hb => absurd hb (by simp [hc.idle])
    idleSettled := fun _ => hc.settled
    freshAfterReset := fun _ hd => absurd hd (by simp [hc.done])
    errFlag := herr
    errShape := hshape
    matchMeansVerify := fun hm => by rw [hc.lastCmd]; exact hmatched hm
    failedClean := fun he i hi => runCommand_failedClean h he (hc.lastCmd ▸ hi) }

theorem State.Inv.withPort {s : State} (h : s.Inv) (rest : List Event) : { s with port := rest }.Inv := { h with }

theorem State.Inv.idleSlot {s : State} (h : s.Inv) : (idleSlot s).Inv := by
  obtain ⟨-, hslot⟩ | ⟨word, v, rest, -, hslot⟩ | ⟨v, rest, -, hslot⟩ | ⟨rest, -, hslot⟩ := idleSlot_cases s <;> rw [hslot]
  · exact h
  · exact (h.withPort rest).portWrite word v
  · exact { h with }
  · exact inv_applyReset h.params

/-- A slot of the busy block changes nothing the invariant speaks of, or resets the block. -/
theorem State.Inv.busySlot {s : State} (h : s.Inv) : (busySlot s).Inv := by
  obtain ⟨hsame, -, -⟩ | ⟨rest, -, hslot⟩ := busySlot_cases s
  · exact hsame.inv h
  · rw [hslot]
    exact inv_applyReset h.params

/-- Settles O5: reset is what a reset of the block after reset leaves. -/
theorem resetMeetsTheInvariant : Obligations.ResetMeetsTheInvariant := inv_applyReset (s := State.reset) (by decide)

/-- Settles O6: completion, a slot of the busy block and a slot of the idle block each keep the invariant. -/
theorem everyStepKeepsTheInvariant : Obligations.EveryStepKeepsTheInvariant := by
  intro s t hs hstep
  obtain ⟨-, -, hcase⟩ | ⟨n, hbusy, -, hcase⟩ | ⟨-, hcase⟩ := step_cases s <;> rw [hcase] at hstep
  · exact hs.runCommand hstep
  · cases hstep
    exact State.Inv.busySlot { hs with idleSettled := fun hidle => absurd (hbusy.symm.trans hidle) (by decide) }
  · cases hstep
    exact hs.idleSlot

end Sys2Proof.Machine

/-! PROOFS. The statements of 30_encoding.md on the decoder (R90 to R94), and those on the sequencer: the step that runs the
decoded command, and the run of a command through its busy time (70_reset_and_hazards.md R245, R246). -/

namespace Sys2Proof.Machine

open Sys2Proof

/-! ### The decoder -/

/-- Settles O1: nine closed words. -/
theorem specWordsDecodeToTheirCommands : Obligations.SpecWordsDecodeToTheirCommands := by
  unfold Obligations.SpecWordsDecodeToTheirCommands
  decide

/-- The row reader decodes the number's low 32 bits. -/
theorem decodeTableWord_32 (w : Nat) : decodeTableWord 32 w = (decode (BitVec.ofNat 32 w)).toOption := by
  have hlt : w % 2 ^ 32 < 2 ^ 32 := Nat.mod_lt _ (by decide)
  have hmod : BitVec.ofNat 32 (w % 2 ^ 32) = BitVec.ofNat 32 w := BitVec.eq_of_toNat_eq (by simp)
  rw [decodeTableWord, if_pos hlt, hmod]

theorem toOption_eq_some_iff (e : Except DecodeReject Instr) (i : Instr) : e.toOption = some i ↔ e = .ok i := by
  cases e <;> simp [Except.toOption]

/-- Settles O3: the row reader answers as the decoder does on the word of the number. -/
theorem tableWordsReadAsTheirRows : Obligations.TableWordsReadAsTheirRows := by
  intro w i
  rw [decodeTableWord_32, toOption_eq_some_iff, decode_ok_iff, BitVec.toNat_eq, BitVec.toNat_ofNat]

/-! ### One step -/

/-- The busy block with no slot left completes its command. -/
theorem step_completes {s : State} (hbusy : s.status.busy = true) (hleft : s.busyLeft = 0) :
    step s = runCommand s.lastCmd s := by
  rw [step, if_pos hbusy, hleft]

/-- The busy block with a slot left lets it pass. -/
theorem step_busySlot {s : State} {n : Nat} (hbusy : s.status.busy = true) (hleft : s.busyLeft = n + 1) :
    step s = .next (busySlot { s with busyLeft := n }) := by
  rw [step, if_pos hbusy, hleft]

theorem runCommand_of_decode_ok {w : Word} {i : Instr} (h : decode w = .ok i) (s : State) : runCommand w s = exec i s := by
  rw [runCommand, h]

theorem runCommand_encode (i : Instr) (s : State) : runCommand (encode i) s = exec i s :=
  runCommand_of_decode_ok ((decode_ok_iff _ i).mpr rfl) s

theorem withFetchWord_lastCmd (i : Instr) (s : State) : (s.withFetchWord 32 (encode i).toNat).lastCmd = encode i := by
  cases i <;> rfl

/-- Settles O7: completion runs the word in `LAST_CMD`, and a placed word is there with no slot left. -/
theorem stepRunsTheDecodedCommand : Obligations.StepRunsTheDecodedCommand := by
  refine ⟨fun s i hbusy hleft hdecode => ?_, fun s r hbusy hleft hdecode => ?_, fun s i => ?_⟩
  · rw [step_completes hbusy hleft, runCommand_of_decode_ok hdecode]
  · rw [step_completes hbusy hleft, runCommand_of_decode_error hdecode]
  · rw [step_completes rfl rfl, withFetchWord_lastCmd, runCommand_encode]

/-- Settles O8: completion, a busy slot and an idle slot each answer a next state. -/
theorem everyStepAnswersANextState : Obligations.EveryStepAnswersANextState := by
  intro s
  obtain ⟨-, -, h⟩ | ⟨n, -, -, h⟩ | ⟨-, h⟩ := step_cases s <;> rw [h]
  · exact runCommand_next s.lastCmd s
  · exact ⟨_, rfl⟩
  · exact ⟨_, rfl⟩

/-! ### The run of a busy block -/

/-- With no reset coming, the slots left and one more step run the command in a state that has the block unchanged. -/
theorem busy_run_completes {s : State} (hbusy : s.status.busy = true) (hreset : Event.reset ∉ s.port) :
    ∃ u t, SameBlock u { s with busyLeft := 0 } ∧ u.port <:+ s.port ∧ runCommand s.lastCmd u = .next t ∧
      Host.Core.run Sys2Proof.core (s.busyLeft + 1) s = .next t := by
  obtain ⟨u, hsame, hport, hrun⟩ := busy_run s.busyLeft s hbusy rfl hreset
  obtain ⟨t, ht⟩ := runCommand_next s.lastCmd u
  have hstep : step u = .next t := by
    rw [step_completes (by rw [hsame.status, hbusy]) hsame.busyLeft, hsame.lastCmd, ht]
  exact ⟨u, t, hsame, hport, ht, by rw [hrun, run_succ hstep]; rfl⟩

/-- Settles O9: what the run comes to is a completed command. -/
theorem aBusyBlockCompletes : Obligations.ABusyBlockCompletes := by
  intro s hbusy hreset
  obtain ⟨u, t, -, -, ht, hrun⟩ := busy_run_completes hbusy hreset
  have hc := runCommand_completed _ _ _ ht
  exact ⟨t, hrun, hc.idle, hc.done, hc.lastCmd⟩

/-! ### A command in other surroundings

The slots of a running command change what stands around the block: the slots left, the events, the replies and two of the
counters. No command reads these. -/

/-- The block of `s`, with the samples it has drawn, in the surroundings of `x`. -/
def State.inSurroundingsOf (x s : State) : State :=
  { s with busyLeft := x.busyLeft, free := { x.free with time := s.free.time }, port := x.port, replies := x.replies }

theorem SameBlock.eq_inSurroundingsOf {u v : State} (h : SameBlock u v) : u = u.inSurroundingsOf v := by
  obtain ⟨params, ops, res, status, err, lastCmd, busyLeft, ⟨time, slots, reads⟩, port, replies⟩ := u
  obtain ⟨rfl, rfl, rfl, rfl, rfl, rfl, -, rfl⟩ := h
  rfl

/-- The end of a body with the state it leaves changed by `g`. -/
def CmdEnd.mapState (g : State → State) : CmdEnd → CmdEnd
  | .finished s => .finished (g s)
  | .raised k info s => .raised k info (g s)

theorem checked_mapState {g : State → State} {f : State → CmdEnd} {s : State} (miss bad : Word)
    (h : f (g s) = (f s).mapState g) : checked miss bad f (g s) = (checked miss bad f s).mapState g := by
  by_cases hmiss : miss = 0
  · by_cases hbad : bad = 0
    · rw [checked_ok hmiss hbad, checked_ok hmiss hbad, h]
    · rw [checked_bad hmiss hbad, checked_bad hmiss hbad, CmdEnd.mapState]
  · rw [checked_miss hmiss, checked_miss hmiss, CmdEnd.mapState]

theorem sampleTime_inSurroundingsOf (x s : State) : sampleTime (x.inSurroundingsOf s) = x.inSurroundingsOf (sampleTime s) := by
  rw [sampleTime_eq, sampleTime_eq]
  rfl

theorem verifyCompute_inSurroundingsOf (x s : State) :
    verifyCompute (x.inSurroundingsOf s) = (verifyCompute s).mapState x.inSurroundingsOf := by
  rw [verifyCompute, verifyCompute, verifyAt, verifyAt, sampleTime_inSurroundingsOf]
  change scanResult (verifyScan (usedTime s) (sampleTime s)) _ = _
  cases verifyScan (usedTime s) (sampleTime s) <;> rfl

/-- No body reads the surroundings of the block. -/
theorem bodyOf_inSurroundingsOf (i : Instr) (x s : State) :
    bodyOf i (x.inSurroundingsOf s) = (bodyOf i s).mapState x.inSurroundingsOf := by
  cases i with
  | encode => rfl
  | hmac => exact checked_mapState _ _ rfl
  | hotp => exact checked_mapState _ _ rfl
  | verify => exact checked_mapState _ _ (verifyCompute_inSurroundingsOf x s)
  | clear => rfl

theorem finish_inSurroundingsOf (ws : List ResMember) (x : State) (e : CmdEnd) :
    SameBlock (finish ws (e.mapState x.inSurroundingsOf)) (finish ws e) := by
  cases e <;> exact ⟨rfl, rfl, rfl, rfl, rfl, rfl, rfl, rfl⟩

theorem runCommand_inSurroundingsOf {w : Word} {x s t t' : State} (h : runCommand w (x.inSurroundingsOf s) = .next t)
    (h' : runCommand w s = .next t') : SameBlock t t' := by
  cases hdecode : decode w with
  | ok i =>
    rw [runCommand_of_decode_ok hdecode] at h h'
    rw [eq_runBody_of_exec h, eq_runBody_of_exec h', runBody, runBody]
    change SameBlock (finish _ (bodyOf i (x.inSurroundingsOf (startCommand i s)))) _
    rw [bodyOf_inSurroundingsOf]
    exact finish_inSurroundingsOf _ x _
  | error r =>
    rw [runCommand_of_decode_error hdecode] at h h'
    cases h
    cases h'
    exact finish_inSurroundingsOf [] x (.raised .illegalCommand 0 (beginCommand w s))

/-! ### A command is one transition -/

/-- Running a command does steps 1 and 2 of 30_encoding.md R92 again, which changes nothing. -/
theorem runCommand_beginCommand (w : Word) (s : State) : runCommand w (beginCommand w s) = runCommand w s := by
  cases hdecode : decode w with
  | ok i =>
    rw [runCommand_of_decode_ok hdecode, runCommand_of_decode_ok hdecode, exec_eq, exec_eq]
    rfl
  | error r =>
    rw [runCommand_of_decode_error hdecode, runCommand_of_decode_error hdecode]
    rfl

/-- A slot of the idle block with an event takes it. -/
theorem idleSlot_of_port {s : State} {e : Event} {rest : List Event} (h : s.port = e :: rest) :
    idleSlot s = idleEvent e { s with port := rest } := by
  rw [idleSlot, h]

theorem portWrite_cmd (w : Word) (s : State) : portWrite Reg.cmd.word w s = acceptCommand w s :=
  portWrite_word_of_fullWidth (by decide) rfl w s

/-- A write of `CMD` at the idle block is accepted. -/
theorem step_accepts {s : State} {w : Word} {rest : List Event} (hidle : s.status.busy = false)
    (hport : s.port = .write Reg.cmd.word w :: rest) : step s = .next (acceptCommand w { s with port := rest }) := by
  rw [step_idle hidle, idleSlot_of_port hport]
  exact congrArg _ (portWrite_cmd w _)

/-- Settles O10: the slots leave the accepted command's block as it is, and neither they nor the start done twice change what
the completion makes of it. -/
theorem aCommandIsOneTransition : Obligations.ACommandIsOneTransition := by
  intro s w rest hidle hport hreset
  obtain ⟨u, t, hsame, hsuffix, ht, hrun⟩ :=
    busy_run_completes (s := acceptCommand w { s with port := rest }) rfl hreset
  obtain ⟨t', ht'⟩ := runCommand_next w s
  have hu : u = u.inSurroundingsOf (beginCommand w s) := hsame.eq_inSurroundingsOf
  have hblock : SameBlock t t' := by
    rw [← runCommand_beginCommand] at ht'
    rw [hu] at ht
    exact runCommand_inSurroundingsOf ht ht'
  have htport : t.port <:+ rest := by
    rw [(runCommand_completed _ _ _ ht).port]
    exact hsuffix
  exact ⟨t, t', (run_succ (step_accepts hidle hport) _).trans hrun, ht', hblock, htport⟩

end Sys2Proof.Machine

/-! PROOFS. The statements of 10_state.md and 20_memory.md on what the port reads: `STATUS` (R41), the operand and result
registers (R29, R30, R33, R42, R44), the accesses that reach the port (R60, R61), and what no register shows (R28). -/

namespace Sys2Proof.Machine

open Sys2Proof

/-! ### Words cut to a register's bits -/

theorem or_and_right (a b m : Word) : (a ||| b) &&& m = (a &&& m) ||| (b &&& m) := by
  ext i
  simp only [BitVec.getElem_and, BitVec.getElem_or, Bool.and_or_distrib_right]

/-- A flag whose bit a mask holds is not cut by it. -/
theorem flagBit_and {n : Nat} {m : Word} (h : BitVec.ofNat 32 (2 ^ n) &&& m = BitVec.ofNat 32 (2 ^ n)) (b : Bool) :
    flagBit b n &&& m = flagBit b n := by
  cases b with
  | false => exact BitVec.zero_and
  | true => exact h

/-- A word below `2 ^ k` is not cut to its lowest `k` bits. -/
theorem and_lowBits_of_lt {v : Word} {k : Nat} (hk : k ≤ 32) (hlt : v.toNat < 2 ^ k) :
    v &&& BitVec.ofNat 32 (2 ^ k - 1) = v := by
  have hpow : 2 ^ k ≤ 2 ^ 32 := Nat.pow_le_pow_right (by decide) hk
  have hpos : 0 < 2 ^ k := Nat.two_pow_pos k
  apply BitVec.eq_of_toNat_eq
  rw [BitVec.toNat_and, BitVec.toNat_ofNat, Nat.mod_eq_of_lt (by omega), Nat.and_two_pow_sub_one_eq_mod, Nat.mod_eq_of_lt hlt]

/-- A register whose value fits its lowest `k` bits reads that value. -/
theorem readReg_of_lt {r : Reg} {s : State} {k : Nat} (hbits : r.bits = BitVec.ofNat 32 (2 ^ k - 1)) (hk : k ≤ 32)
    (hlt : (r.value s).toNat < 2 ^ k) : readReg r s = r.value s := by
  rw [readReg, hbits, and_lowBits_of_lt hk hlt]

/-! ### `STATUS` -/

theorem readReg_status (s : State) : readReg .status s = statusWord s := by
  rw [readReg, Reg.value, Reg.bits, statusWord]
  simp (disch := decide) only [or_and_right, flagBit_and]

theorem statusWord_getLsbD (s : State) (i : Nat) : (statusWord s).getLsbD i =
    (s.status.busy && decide (i = 0) || s.status.done && decide (i = 1) || s.status.err && decide (i = 2) ||
      s.res.matched && decide (i = 3) || s.res.wrap && decide (i = 4) || s.ops.cntValid && decide (i = 8) ||
      s.ops.nowValid && decide (i = 9) || s.ops.keyOvf && decide (i = 10) || s.ops.tokOvf && decide (i = 11)) := by
  simp (disch := decide) only [statusWord, BitVec.getLsbD_or, flagBit_getLsbD]

theorem portRead_word_of_mem_namedRegs {r : Reg} (hr : r ∈ namedRegs) (s : State) : portRead r.word s = readReg r s :=
  portRead_of_regAt (regAt_word_of_mem_namedRegs _ hr)

/-- Settles O56: the column "bits" of `STATUS` holds every flag, so its read is the word the flags make. -/
theorem statusShowsEachFlagAtItsBit : Obligations.StatusShowsEachFlagAtItsBit := by
  intro s v
  have hv : v = statusWord s := (portRead_word_of_mem_namedRegs (r := .status) (by decide) s).trans (readReg_status s)
  rw [hv]
  have hother : ∀ i, i ∉ [0, 1, 2, 3, 4, 8, 9, 10, 11] → (statusWord s).getLsbD i = false := by
    intro i hi
    simp only [List.mem_cons, List.not_mem_nil, or_false, not_or] at hi
    simp [statusWord_getLsbD, hi]
  refine ⟨?_, ?_, ?_, ?_, ?_, ?_, ?_, ?_, ?_, hother, rfl⟩
  all_goals
    rw [statusWord_getLsbD]
    simp

/-! ### The operand, error and last-command registers -/

/-- `ERR` has no bit outside its column "bits" (10_state.md R42). -/
theorem ErrShape.and_bits {e : Word} (h : ErrShape e) : e &&& Reg.err.bits = e := by
  have hsplit : e = (e &&& Reg.err.bits) ||| (e &&& ~~~Reg.err.bits) := by
    ext i
    simp only [BitVec.getElem_or, BitVec.getElem_and, BitVec.getElem_not, ← Bool.and_or_distrib_left, Bool.or_not_self,
      Bool.and_true]
  rw [h.defined] at hsplit
  exact (hsplit.trans BitVec.or_zero).symm

theorem Params.ranges_of_wf {p : Params} (h : p.wf = true) : p.keyMax ≤ 65535 ∧ p.codeMax ≤ 64 := by
  simp only [Params.wf, Bool.and_eq_true, decide_eq_true_eq] at h
  omega

/-- A length register as wide as its capacity needs reads the length. -/
theorem readReg_length {r : Reg} {s : State} {k n : Nat} (hvalue : r.value s = BitVec.ofNat 32 n)
    (hbits : r.bits = BitVec.ofNat 32 (2 ^ k - 1)) (hk : k ≤ 32) (hn : n < 2 ^ k) : (readReg r s).toNat = n := by
  have hlt : n < 2 ^ 32 := Nat.lt_of_lt_of_le hn (Nat.pow_le_pow_right (by decide) hk)
  have htoNat : (r.value s).toNat = n := by rw [hvalue, BitVec.toNat_ofNat, Nat.mod_eq_of_lt hlt]
  rw [readReg_of_lt hbits hk (by rwa [htoNat]), htoNat]

/-- Settles O57: registers of 32 bits read their value; the narrower ones are held to their bits by the invariant. -/
theorem theOperandRegistersReadWhatTheyHold : Obligations.TheOperandRegistersReadWhatTheyHold := by
  intro s rd
  have hfull : ∀ r ∈ namedRegs, r.bits = 0xFFFFFFFF → rd r.byteOffset = r.value s :=
    fun r hr hbits => portRead_word_of_fullWidth hr hbits s
  refine ⟨hfull .lastCmd (by decide) rfl, hfull .counterLo (by decide) rfl, hfull .counterHi (by decide) rfl,
    hfull .codeLen (by decide) rfl, hfull .step (by decide) rfl, hfull .allow (by decide) rfl,
    hfull .nowLo (by decide) rfl, hfull .nowHi (by decide) rfl, fun hinv => ⟨?_, ?_, ?_⟩⟩
  · exact (portRead_word_of_mem_namedRegs (r := .err) (by decide) s).trans hinv.errShape.and_bits
  · obtain ⟨hkeyMax, -⟩ := Params.ranges_of_wf hinv.params
    have hfits := hinv.keyFits
    exact (congrArg BitVec.toNat (portRead_word_of_mem_namedRegs (r := .keyLen) (by decide) s)).trans
      (readReg_length (k := 16) rfl rfl (by decide) (by omega))
  · obtain ⟨-, hcodeMax⟩ := Params.ranges_of_wf hinv.params
    have hfits := hinv.tokenFits
    exact (congrArg BitVec.toNat (portRead_word_of_mem_namedRegs (r := .tokenLen) (by decide) s)).trans
      (readReg_length (k := 8) rfl rfl (by decide) (by omega))

/-! ### The result registers -/

/-- The number of the four bytes of a string from index `i` on, most significant first. -/
def fourBytesAt (bytes : Bytes) (i : Nat) : Nat :=
  (bytes.getD i 0).toNat * 2 ^ 24 + (bytes.getD (i + 1) 0).toNat * 2 ^ 16 + (bytes.getD (i + 2) 0).toNat * 2 ^ 8 +
    (bytes.getD (i + 3) 0).toNat

theorem fromBe32_toNat_fourBytesAt {n : Nat} (v : Vector Byte n) (i : Nat) (h : i + 3 < n) :
    (fromBe32 v[i] v[i + 1] v[i + 2] v[i + 3]).toNat = fourBytesAt v.toList i := by
  have hget : ∀ j, (hj : j < n) → v.toList.getD j 0 = v[j] := by
    intro j hj
    rw [List.getD_eq_getElem _ _ (by simpa using hj), Vector.getElem_toList]
  rw [fromBe32_toNat, fourBytesAt, hget i (by omega), hget (i + 1) (by omega), hget (i + 2) (by omega), hget (i + 3) h]

/-- A register that shows a narrower value zero-extended, where the column "bits" has the value's width. -/
theorem readReg_setWidth {r : Reg} {s : State} {k : Nat} {x : BitVec k} (hvalue : r.value s = x.setWidth 32)
    (hbits : r.bits = BitVec.ofNat 32 (2 ^ k - 1)) (hk : k ≤ 32) : (readReg r s).toNat = x.toNat := by
  have htoNat : (r.value s).toNat = x.toNat := by rw [hvalue, BitVec.toNat_setWidth_of_le hk]
  rw [readReg_of_lt hbits hk (by rw [htoNat]; exact x.isLt), htoNat]

/-- A code byte of the map reads that byte, and 0 at and beyond the code's length. -/
theorem portRead_code {s : State} {j : Nat} (hj : j < 64) (hmax : j < s.params.codeMax) :
    (portRead (BitVec.ofNat 7 ((0x100 + 4 * j) / 4)) s).toNat = (s.res.code.getD j 0).toNat := by
  have hreg : regAt s.params.codeMax (BitVec.ofNat 7 ((0x100 + 4 * j) / 4)) = some (.code ⟨j, hj⟩) :=
    (regAt_code _ j hj).trans (if_pos hmax)
  rw [portRead_of_regAt hreg]
  exact readReg_setWidth rfl rfl (by decide)

theorem portRead_code_of_length_le {s : State} {j : Nat} (hj : j < 64) (hlen : s.res.code.length ≤ j) :
    portRead (BitVec.ofNat 7 ((0x100 + 4 * j) / 4)) s = 0 := by
  by_cases hmax : j < s.params.codeMax
  · have hzero := portRead_code hj hmax
    rw [List.getD_eq_default _ _ hlen] at hzero
    exact BitVec.eq_of_toNat_eq hzero
  · exact portRead_of_reserved ((regAt_code _ j hj).trans (if_neg hmax))

/-- Settles O58: byte strings by their numbers, narrower values by their widths, the code bytes by the address map. -/
theorem theResultRegistersReadWhatTheyHold : Obligations.TheResultRegistersReadWhatTheyHold := by
  intro s rd word
  have hfull : ∀ r ∈ namedRegs, r.bits = 0xFFFFFFFF → rd r.byteOffset = r.value s :=
    fun r hr hbits => portRead_word_of_fullWidth hr hbits s
  have hnamed : ∀ r ∈ namedRegs, rd r.byteOffset = readReg r s := fun r hr => portRead_word_of_mem_namedRegs hr s
  refine ⟨?_, ?_, fun n hn => ?_, ?_, ?_, ?_, fun hinv => ?_, hfull .tstepLo (by decide) rfl, hfull .tstepHi (by decide) rfl,
    hfull .nowlLo (by decide) rfl, hfull .nowlHi (by decide) rfl, fun j => portRead_code, fun j => portRead_code_of_length_le⟩
  · exact (congrArg BitVec.toNat (hfull .encHi (by decide) rfl)).trans (fromBe32_toNat_fourBytesAt s.res.enc 0 (by decide))
  · exact (congrArg BitVec.toNat (hfull .encLo (by decide) rfl)).trans (fromBe32_toNat_fourBytesAt s.res.enc 4 (by decide))
  · have hmem : ∀ k : Fin 5, Reg.digest k ∈ namedRegs := by decide
    exact (congrArg BitVec.toNat (hfull (.digest ⟨n, hn⟩) (hmem _) rfl)).trans
      (fromBe32_toNat_fourBytesAt s.res.digest (4 * n) (by omega))
  · exact (congrArg BitVec.toNat (hnamed .offset (by decide))).trans (readReg_setWidth rfl rfl (by decide))
  · exact (congrArg BitVec.toNat (hnamed .trunc (by decide))).trans (readReg_setWidth rfl rfl (by decide))
  · exact (congrArg BitVec.toNat (hnamed .codeVal (by decide))).trans (readReg_setWidth rfl rfl (by decide))
  · obtain ⟨-, hcodeMax⟩ := Params.ranges_of_wf hinv.params
    have hfits := hinv.codeFits
    exact (congrArg BitVec.toNat (hnamed .codeOutLen (by decide))).trans
      (readReg_length (k := 8) rfl rfl (by decide) (by omega))

/-! ### The accesses that reach the port -/

/-- Settles O44: the four conditions of `busWord`, for any `BASE` that is a multiple of 512. -/
theorem onlyAlignedWordAccessesReachThePort : Obligations.OnlyAlignedWordAccessesReachThePort := by
  have hbase : Config.base % 4 = 0 := by rw [Config.base]; omega
  refine ⟨fun off hoff halign => ?_, fun address size h => ?_⟩
  · have hcond : 4 = 4 ∧ (Config.base + off) % 4 = 0 ∧ Config.base ≤ Config.base + off ∧
        Config.base + off < Config.base + 512 := by omega
    refine ⟨_, if_pos hcond, ?_⟩
    rw [Nat.add_sub_cancel_left, BitVec.toNat_ofNat]
    omega
  · exact if_neg (by omega)

/-! ### What no register shows -/

/-- `s` with other key and token bytes. -/
def State.withSecrets (s : State) (key token : Bytes) : State := { s with ops := { s.ops with key := key, token := token } }

/-- Two states apart in their secrets are one state with two keys and tokens of the same lengths. -/
theorem SecretsApart.eq_withSecrets {s s' : State} (h : SecretsApart s s') :
    ∃ key token, s' = s.withSecrets key token ∧ s.ops.key.length = key.length ∧ s.ops.token.length = token.length :=
  ⟨s'.ops.key, s'.ops.token, secretsApart_fields h, h.keyLen, h.tokenLen⟩

/-- Of the key and the token a register shows their lengths alone. -/
theorem Reg.value_withSecrets {s : State} {key token : Bytes} (hkey : s.ops.key.length = key.length)
    (htoken : s.ops.token.length = token.length) (r : Reg) : r.value (s.withSecrets key token) = r.value s := by
  cases r
  case keyLen => exact congrArg (BitVec.ofNat 32) hkey.symm
  case tokenLen => exact congrArg (BitVec.ofNat 32) htoken.symm
  all_goals rfl

theorem readReg_secretsApart {s s' : State} (h : SecretsApart s s') (r : Reg) : readReg r s = readReg r s' := by
  obtain ⟨key, token, rfl, hkey, htoken⟩ := h.eq_withSecrets
  rw [readReg, readReg, Reg.value_withSecrets hkey htoken]

theorem portRead_secretsApart {s s' : State} (h : SecretsApart s s') (w : BitVec 7) : portRead w s = portRead w s' := by
  have hparams : s'.params = s.params := by rw [secretsApart_fields h]
  cases hreg : regAt s.params.codeMax w with
  | some r => rw [portRead_of_regAt hreg, portRead_of_regAt (hparams ▸ hreg), readReg_secretsApart h]
  | none => rw [portRead_of_reserved hreg, portRead_of_reserved (hparams ▸ hreg)]

/-- Settles O42, register by register. -/
theorem noRegisterShowsAKeyByte : Obligations.NoRegisterShowsAKeyByte := fun _ _ w h => portRead_secretsApart h w

end Sys2Proof.Machine

/-! PROOFS. The statements on what a step makes of the next event of the port: the idle block (20_memory.md R60, R64 to R66;
30_encoding.md R91, R105; 60_exceptions.md R215), the busy block (70_reset_and_hazards.md R245), and two blocks apart in their
secrets (10_state.md R27, R28). -/

namespace Sys2Proof.Machine

open Sys2Proof

/-! ### The idle block -/

/-- A step of the idle block takes the next event. -/
theorem step_idle_of_port {s : State} {e : Event} {rest : List Event} (hidle : s.status.busy = false)
    (hport : s.port = e :: rest) : step s = .next (idleEvent e { s with port := rest }) := by
  rw [step_idle hidle, idleSlot_of_port hport]

/-- Settles O31: the idle block answers a read with the value of the port, which the events to come do not touch. -/
theorem aReadHasNoSideEffect : Obligations.AReadHasNoSideEffect := fun _ _ _ hidle hport => step_idle_of_port hidle hport

/-- A register stands at the address its name gives. -/
theorem word_eq_of_regAt {codeMax : Nat} {w : BitVec 7} {r : Reg} (h : regAt codeMax w = some r) : w = r.word := by
  have hoffset : r.byteOffset = 4 * w.toNat := by
    by_cases hw : 64 ≤ w.toNat
    · rw [regAt, dif_pos hw] at h
      split at h
      · cases h
        exact show 0x100 + 4 * (w.toNat - 64) = 4 * w.toNat by omega
      · cases h
    · rw [regAt_low codeMax hw] at h
      simpa using List.find?_some h
  rw [Reg.word, hoffset, Nat.mul_div_cancel_left _ (by decide), BitVec.ofNat_toNat, BitVec.setWidth_eq]

/-- Settles O59: the two kinds of idle slot, and the address of each register. -/
theorem theIdleBlockServesWritesAndElseStays : Obligations.TheIdleBlockServesWritesAndElseStays := by
  refine ⟨fun s w v rest hidle hport => step_idle_of_port hidle hport, fun s hidle hport => ?_,
    fun codeMax w r => word_eq_of_regAt⟩
  rw [step_idle hidle, idleSlot, hport]

/-- Settles O41: of the idle block's slots only a write of `CMD` and a reset touch more than operands and replies. -/
theorem errorsAndResultsStayUntilTheNextCommand : Obligations.ErrorsAndResultsStayUntilTheNextCommand := by
  intro s t hidle hcmd hreset hstep
  rw [step_idle hidle] at hstep
  cases hstep
  obtain ⟨-, hslot⟩ | ⟨word, v, rest, hport, hslot⟩ | ⟨v, rest, -, hslot⟩ | ⟨rest, hport, -⟩ := idleSlot_cases s
  · rw [hslot]
    exact ⟨rfl, rfl, rfl, rfl⟩
  · rw [hslot]
    obtain ⟨rfl, -⟩ | ⟨-, o, hwrite, -⟩ := portWrite_cases word v { s with port := rest }
    · exact absurd (congrArg List.head? hport) (hcmd v)
    · rw [hwrite]
      exact ⟨rfl, rfl, rfl, rfl⟩
  · rw [hslot]
    exact ⟨rfl, rfl, rfl, rfl⟩
  · exact absurd (congrArg List.head? hport) hreset

/-! ### The busy block -/

/-- A write to the busy block is dropped: one slot passes (70_reset_and_hazards.md R245). -/
theorem step_busy_drops {s : State} {n : Nat} {w : BitVec 7} {v : Word} {rest : List Event} (hbusy : s.status.busy = true)
    (hleft : s.busyLeft = n + 1) (hport : s.port = .write w v :: rest) :
    step s = .next { s with port := rest, busyLeft := n } := by
  rw [step_busySlot hbusy hleft, busySlot, hport]

/-- Settles O33: the third point of 70_reset_and_hazards.md R245 at every address. -/
theorem aBusyBlockDropsWrites : Obligations.ABusyBlockDropsWrites := fun _ _ _ _ _ => step_busy_drops

/-- Settles O32: the idle block accepts the word, the busy block drops it. -/
theorem aCommandWriteIsAcceptedExactlyWhenIdle : Obligations.ACommandWriteIsAcceptedExactlyWhenIdle :=
  fun s _ _ hport => ⟨fun hidle => ⟨Config.busySlots s.free.slots, step_accepts hidle hport⟩,
    fun _ hbusy hleft => step_busy_drops hbusy hleft hport⟩

/-- The bits of a busy read of `STATUS` that a mask shows: those of the free value it holds, and bit 0. -/
theorem busyStatusWord_and (free m : Word) :
    busyStatusWord free &&& m = (free &&& (statusUnspecifiedMask &&& m)) ||| (0x00000001 &&& m) := by
  rw [busyStatusWord, or_and_right, BitVec.and_assoc]

theorem busyStatusWord_busy_done (free : Word) : busyStatusWord free &&& 0x00000003 = 0x00000001 := by
  have hmask : statusUnspecifiedMask &&& 0x00000003 = 0 := by decide
  rw [busyStatusWord_and, hmask, BitVec.ofNat_eq_ofNat, BitVec.and_zero]
  rfl

theorem busyStatusWord_undefined (free : Word) : busyStatusWord free &&& ~~~0x00000F1F = 0 := by
  have hmask : statusUnspecifiedMask &&& ~~~0x00000F1F = 0 := by decide
  rw [busyStatusWord_and, hmask, BitVec.ofNat_eq_ofNat, BitVec.and_zero]
  rfl

/-- Settles O34: a read draws a value, of which a read of `STATUS` shows the bits left unspecified. -/
theorem aBusyBlockAnswersReads : Obligations.ABusyBlockAnswersReads := by
  intro s n w rest hbusy hleft hport
  refine ⟨busyView w (Config.busyRead s.free.reads), ?_, fun hw => ?_⟩
  · rw [step_busySlot hbusy hleft, busySlot, hport]
    rfl
  · rw [busyView, if_pos hw]
    exact ⟨busyStatusWord_busy_done _, busyStatusWord_undefined _⟩

/-- Settles O35: the idle block serves the wait with `STATUS`, the busy block keeps it at the head of the port. -/
theorem waitPollsUntilTheBlockIsIdle : Obligations.WaitPollsUntilTheBlockIsIdle := by
  refine fun s rest hport => ⟨fun hidle => ?_, fun n hbusy hleft => ?_⟩
  · refine ⟨_, step_idle_of_port hidle hport, rfl, ?_, ⟨rfl, rfl, rfl, rfl, rfl, rfl, rfl, rfl⟩⟩
    exact congrArg (· :: s.replies) (readReg_status _)
  · have hslot : busySlot { s with busyLeft := n } = busyReply busyStatusWord { s with busyLeft := n } := by
      rw [busySlot, hport]
    refine ⟨_, _, (step_busySlot hbusy hleft).trans (congrArg _ hslot), rfl, rfl, busyStatusWord_busy_done _,
      ⟨rfl, rfl, rfl, rfl, rfl, rfl, rfl, rfl⟩⟩

/-! ### Two blocks apart in their secrets -/

/-- A write keeps two states apart in their secrets alone: a push appends to buffers of one length. -/
theorem portWrite_secretsApart {s s' : State} (h : SecretsApart s s') (w : BitVec 7) (v : Word) :
    SecretsApart (portWrite w v s) (portWrite w v s') := by
  have hparams : s'.params = s.params := by rw [secretsApart_fields h]
  cases hreg : regAt s.params.codeMax w with
  | none => rwa [portWrite_of_reserved hreg, portWrite_of_reserved (hparams ▸ hreg)]
  | some r =>
    rw [portWrite_of_regAt hreg, portWrite_of_regAt (hparams ▸ hreg)]
    obtain ⟨key, token, rfl, hkey, htoken⟩ := h.eq_withSecrets
    cases r
    case keyPush =>
      obtain ⟨hlen, hovf⟩ := push_len s.params.keyMax ((v &&& Reg.bits .keyPush).extractLsb' 0 8) s.ops.keyOvf hkey
      exact ⟨hlen, htoken, congrArg (fun b => { s with ops := { s.ops with key := [], token := [], keyOvf := b } }) hovf⟩
    case tokenPush =>
      obtain ⟨hlen, hovf⟩ := push_len s.params.codeMax ((v &&& Reg.bits .tokenPush).extractLsb' 0 8) s.ops.tokOvf htoken
      exact ⟨hkey, hlen, congrArg (fun b => { s with ops := { s.ops with key := [], token := [], tokOvf := b } }) hovf⟩
    all_goals exact ⟨hkey, htoken, rfl⟩

theorem SecretsApart.refl (s : State) : SecretsApart s s := ⟨rfl, rfl, rfl⟩

theorem SecretsApart.withPort {s s' : State} (h : SecretsApart s s') (port : List Event) :
    SecretsApart { s with port := port } { s' with port := port } := by
  obtain ⟨key, token, rfl, hkey, htoken⟩ := h.eq_withSecrets
  exact ⟨hkey, htoken, rfl⟩

theorem SecretsApart.reply {s s' : State} (h : SecretsApart s s') (v : Word) : SecretsApart (reply v s) (reply v s') := by
  obtain ⟨key, token, rfl, hkey, htoken⟩ := h.eq_withSecrets
  exact ⟨hkey, htoken, rfl⟩

/-- Reset forgets both secrets. -/
theorem SecretsApart.applyReset_eq {s s' : State} (h : SecretsApart s s') : applyReset s = applyReset s' := by
  obtain ⟨key, token, rfl, -, -⟩ := h.eq_withSecrets
  rfl

/-- An event at the idle block shows neither secret: reads agree, pushes append to buffers of one length. -/
theorem idleEvent_secretsApart {s s' : State} (h : SecretsApart s s') (e : Event) :
    SecretsApart (idleEvent e s) (idleEvent e s') := by
  cases e with
  | write w v => exact portWrite_secretsApart h w v
  | read w =>
    rw [idleEvent, idleEvent, portRead_secretsApart h w]
    exact h.reply _
  | wait =>
    rw [idleEvent, idleEvent, readReg_secretsApart h .status]
    exact h.reply _
  | reset =>
    rw [idleEvent, idleEvent, h.applyReset_eq]
    exact .refl _

theorem idleSlot_secretsApart {s s' : State} (h : SecretsApart s s') : SecretsApart (idleSlot s) (idleSlot s') := by
  have hport' : s'.port = s.port := by rw [secretsApart_fields h]
  cases hport : s.port with
  | nil => rwa [idleSlot, idleSlot, hport', hport]
  | cons e rest =>
    rw [idleSlot_of_port hport, idleSlot_of_port (hport'.trans hport)]
    exact idleEvent_secretsApart (h.withPort rest) e

/-- A slot of the busy block that serves no read: a write is dropped and a reset forgets both secrets. -/
theorem busySlot_secretsApart {s s' : State} (h : SecretsApart s s') (hread : ∀ w, s.port.head? ≠ some (.read w))
    (hwait : s.port.head? ≠ some .wait) : SecretsApart (busySlot s) (busySlot s') := by
  have hport' : s'.port = s.port := by rw [secretsApart_fields h]
  rw [busySlot, busySlot, hport']
  cases hport : s.port with
  | nil => exact h
  | cons e rest =>
    cases e with
    | write w v => exact h.withPort rest
    | read w => exact absurd (congrArg List.head? hport) (hread w)
    | wait => exact absurd (congrArg List.head? hport) hwait
    | reset =>
      change SecretsApart (applyReset _) (applyReset _)
      rw [(h.withPort rest).applyReset_eq]
      exact .refl _

/-- `ENCODE`, `CLEAR` and the reserved words read neither secret, and their completion discards both. -/
theorem runCommand_secretsApart {w : Word} {s s' : State} (h : SecretsApart s s') (hhmac : w ≠ 0x00000002)
    (hhotp : w ≠ 0x00000003) (hverify : w ≠ 0x00000004) : runCommand w s = runCommand w s' := by
  obtain ⟨key, token, rfl, -, -⟩ := h.eq_withSecrets
  cases hdecode : decode w with
  | error r =>
    rw [runCommand_of_decode_error hdecode, runCommand_of_decode_error hdecode]
    rfl
  | ok i =>
    rw [runCommand_of_decode_ok hdecode, runCommand_of_decode_ok hdecode]
    have hw : w = encode i := (decode_ok_iff w i).mp hdecode
    cases i with
    | encode => rfl
    | hmac => exact absurd hw hhmac
    | hotp => exact absurd hw hhotp
    | verify => exact absurd hw hverify
    | clear => rfl

theorem SecretsApart.withBusyLeft {s s' : State} (h : SecretsApart s s') (n : Nat) :
    SecretsApart { s with busyLeft := n } { s' with busyLeft := n } := by
  obtain ⟨key, token, rfl, hkey, htoken⟩ := h.eq_withSecrets
  exact ⟨hkey, htoken, rfl⟩

theorem SecretsApart.replies_eq {s s' : State} (h : SecretsApart s s') : s.replies = s'.replies := by
  rw [secretsApart_fields h]

/-- Settles O43: completion of a word that reads no secret, a busy slot that serves no read, and every idle slot. -/
theorem secretsStayHiddenWithoutACommandThatReadsThem : Obligations.SecretsStayHiddenWithoutACommandThatReadsThem := by
  intro s s' h hbusyCase _
  have hstatus : s'.status = s.status := by rw [secretsApart_fields h]
  have hleft' : s'.busyLeft = s.busyLeft := by rw [secretsApart_fields h]
  have hlast : s'.lastCmd = s.lastCmd := by rw [secretsApart_fields h]
  suffices ∃ t t', step s = .next t ∧ step s' = .next t' ∧ SecretsApart t t' by
    obtain ⟨t, t', ht, ht', hapart⟩ := this
    exact ⟨t, t', ht, ht', hapart, hapart.replies_eq⟩
  obtain ⟨hbusy, hleft, hstep⟩ | ⟨n, hbusy, hleft, hstep⟩ | ⟨hidle, hstep⟩ := step_cases s
  · obtain ⟨hhmac, hhotp, hverify, -⟩ := hbusyCase hbusy
    obtain ⟨t, ht⟩ := runCommand_next s.lastCmd s
    have hstep' : step s' = .next t := by
      rw [step_completes (hstatus ▸ hbusy) (hleft'.trans hleft), hlast,
        ← runCommand_secretsApart h hhmac hhotp hverify, ht]
    exact ⟨t, t, hstep.trans ht, hstep', .refl t⟩
  · obtain ⟨-, -, -, hnoRead⟩ := hbusyCase hbusy
    obtain ⟨hread, hwait⟩ := hnoRead (by omega)
    exact ⟨_, _, hstep, step_busySlot (hstatus ▸ hbusy) (hleft'.trans hleft),
      busySlot_secretsApart (h.withBusyLeft n) hread hwait⟩
  · exact ⟨_, _, hstep, step_idle (hstatus ▸ hidle), idleSlot_secretsApart h⟩

end Sys2Proof.Machine

/-! PROOFS. The statements of 43_totp_verify.md on what `VERIFY` leaves when its checks pass: the scan in order (R184, R185,
R189), the comparison with the current code (R194), and the time it uses (R185, with 30_encoding.md R98). -/

namespace Sys2Proof.Machine

open Sys2Proof

/-! ### The result bank `VERIFY` leaves -/

/-- The result bank with the time latched and nothing stored yet (43_totp_verify.md R184, R185). -/
def latchedBank (s : State) : ResultBank :=
  { ResultBank.cleared with
    nowl := usedTime s
    tstep := tstepFn (usedTime s) s.ops.step
    wrap := windowWraps (tstepFn (usedTime s) s.ops.step) s.ops.allow }

theorem latchTime_startCommand_res (s : State) :
    (latchTime (usedTime s) (sampleTime (startCommand .verify s))).res = latchedBank s := by
  rw [latchTime_res, sampleTime_res, sampleTime_ops, startCommand_verify_res]
  rfl

theorem latchTime_startCommand_time (s : State) : (latchTime (usedTime s) (sampleTime (startCommand .verify s))).free.time =
    if s.ops.nowValid = true then s.free.time else s.free.time + 1 := by
  rw [latchTime_free, sampleTime_time]
  rfl

/-- The scan found the token: its values are stored and `MATCH` is set. -/
theorem verify_next_of_found {s : State} {out : HotpOut} {k : Nat} (h : VerifyReady s)
    (hscan : verifyScan (usedTime s) s = .found out k) :
    ∃ t, exec .verify s = .next t ∧ Succeeded (encode .verify) s t ∧
      t.res = { (latchedBank s).storeHotp out with matched := true } ∧
      t.free.time = if s.ops.nowValid = true then s.free.time else s.free.time + 1 := by
  obtain ⟨hnext, hs⟩ := verify_next_of_scan_finished h (congrArg (scanResult · _) hscan)
  refine ⟨_, hnext, hs, ?_, latchTime_startCommand_time s⟩
  rw [← latchTime_startCommand_res, complete_res]

/-- The scan came to the end of the window: the values of its last counter are stored. -/
theorem verify_next_of_exhausted {s : State} {out : HotpOut} {k : Nat} (h : VerifyReady s)
    (hscan : verifyScan (usedTime s) s = .exhausted out k) :
    ∃ t, exec .verify s = .next t ∧ Succeeded (encode .verify) s t ∧ t.res = (latchedBank s).storeHotp out ∧
      t.free.time = if s.ops.nowValid = true then s.free.time else s.free.time + 1 := by
  obtain ⟨hnext, hs⟩ := verify_next_of_scan_finished h (congrArg (scanResult · _) hscan)
  refine ⟨_, hnext, hs, ?_, latchTime_startCommand_time s⟩
  rw [← latchTime_startCommand_res, complete_res]

/-- The quirk's error comes after the time was sampled. -/
theorem verify_next_of_zeroCounter_time {s t : State} {k : Nat} (h : VerifyReady s)
    (hscan : verifyScan (usedTime s) s = .zeroCounter k) (hnext : exec .verify s = .next t) :
    t.free.time = if s.ops.nowValid = true then s.free.time else s.free.time + 1 := by
  have hbody := verify_body h
  rw [hscan] at hbody
  rw [eq_runBody_of_exec hnext, (runBody_raised hbody).1]
  exact latchTime_startCommand_time s

/-! ### The scan from the first index -/

/-- `T`, the index of the time step `VERIFY` uses (43_totp_verify.md R185). -/
def timeStep (s : State) : Dword := tstepFn (usedTime s) s.ops.step

/-- The values of the counter at window index `j`. -/
def windowOut (s : State) (j : Nat) : HotpOut := hotpFn s.ops.key (window (timeStep s) s.ops.allow j) s.ops.token.length

section Scan
variable {s : State} {k : Nat}

/-- The lowest index whose code is the token, reached before any counter the quirk stops at. -/
theorem verifyScan_found (hk : k ≤ 2 * s.ops.allow.toNat) (hcode : (windowOut s k).code = s.ops.token)
    (hbefore : ∀ j < k, (windowOut s j).code ≠ s.ops.token)
    (hquirk : s.params.zeroCounterMissing = true → ∀ j ≤ k, window (timeStep s) s.ops.allow j ≠ 0) :
    verifyScan (usedTime s) s = .found (windowOut s k) k :=
  (scan_run hk fun j hj => ⟨fun hq => hquirk hq j (Nat.le_of_lt hj), hbefore j hj⟩).trans
    (scanFrom_found _ (fun hq => hquirk hq k (Nat.le_refl k)) hcode)

/-- No code of the window is the token: the scan ends at the last index. -/
theorem verifyScan_exhausted (hnone : ∀ j ≤ 2 * s.ops.allow.toNat, (windowOut s j).code ≠ s.ops.token)
    (hquirk : s.params.zeroCounterMissing = true →
      ∀ j ≤ 2 * s.ops.allow.toNat, window (timeStep s) s.ops.allow j ≠ 0) :
    verifyScan (usedTime s) s = .exhausted (windowOut s (2 * s.ops.allow.toNat)) (2 * s.ops.allow.toNat) := by
  have hpass : ∀ j ≤ 2 * s.ops.allow.toNat, Passes s.params.zeroCounterMissing s.ops.key s.ops.token (timeStep s)
      s.ops.allow j := fun j hj => ⟨fun hq => hquirk hq j hj, hnone j hj⟩
  have hrun := scan_run (Nat.le_refl _) fun j hj => hpass j (Nat.le_of_lt hj)
  rw [Nat.sub_self] at hrun
  exact hrun.trans (scanFrom_last (hpass _ (Nat.le_refl _)))

/-- The last counter of the window is `T + ALLOW`. -/
theorem windowOut_last (s : State) : windowOut s (2 * s.ops.allow.toNat) =
    hotpFn s.ops.key (timeStep s + s.ops.allow.setWidth 64) s.ops.token.length := by
  rw [windowOut, window_last]

/-- Under the quirk, the counter 0 reached before any match. -/
theorem verifyScan_zeroCounter (hquirk : s.params.zeroCounterMissing = true) (hk : k ≤ 2 * s.ops.allow.toNat)
    (hzero : window (timeStep s) s.ops.allow k = 0)
    (hbefore : ∀ j < k, window (timeStep s) s.ops.allow j ≠ 0 ∧ (windowOut s j).code ≠ s.ops.token) :
    verifyScan (usedTime s) s = .zeroCounter k :=
  (scan_run hk fun j hj => ⟨fun _ => (hbefore j hj).1, (hbefore j hj).2⟩).trans (scanFrom_zeroCounter _ hquirk hzero)

end Scan

/-- Settles O15: each clause names the end of the scan, and the end of the scan names the result bank. -/
theorem verifyScansTheWindowInOrder : Obligations.VerifyScansTheWindowInOrder := by
  intro s t₀ wraps out last sampled
  have hwraps : (latchedBank s).wrap = true ↔ wraps := windowWraps_iff t₀ s.ops.allow
  refine ⟨fun hready k hk hcode hbefore hquirk => ?_, fun hready hnone hquirk => ?_,
    fun hready hquirk k hk hzero hbefore => ?_, fun hnot => ?_⟩
  · obtain ⟨t, hnext, hs, hres, htime⟩ := verify_next_of_found hready (verifyScan_found hk hcode hbefore hquirk)
    refine ⟨t, hnext, hs, ?_⟩
    rw [hres]
    exact ⟨rfl, rfl, rfl, hwraps, rfl, rfl, rfl, rfl, rfl, hcode, htime⟩
  · obtain ⟨t, hnext, hs, hres, htime⟩ := verify_next_of_exhausted hready (verifyScan_exhausted hnone hquirk)
    refine ⟨t, hnext, hs, ?_⟩
    rw [hres, windowOut_last]
    exact ⟨rfl, rfl, rfl, hwraps, rfl, rfl, rfl, rfl, rfl, rfl, htime⟩
  · have hscan := verifyScan_zeroCounter hquirk hk hzero hbefore
    obtain ⟨t, hnext, hfailed⟩ := verify_next_of_zeroCounter hready hscan
    exact ⟨t, hnext, hfailed, hfailed.res_cleared, verify_next_of_zeroCounter_time hready hscan hnext⟩
  · obtain ⟨t, e, hnext, hfailed, htime⟩ := verify_next_of_not_ready hnot
    exact ⟨t, e, hnext, hfailed, hfailed.res_cleared, htime⟩

/-! ### No allowance -/

/-- With the radius 0 the window is the one counter `T`, at index 0. -/
theorem window_allow_zero (t : Dword) : window t 0 0 = t := by simp [window_zero]

theorem windowWraps_allow_zero (t : Dword) : windowWraps t 0 = false := by
  have ht := t.isLt
  have hnot : ¬ windowWraps t 0 = true := by
    rw [windowWraps_iff, BitVec.ofNat_eq_ofNat, BitVec.toNat_zero]
    omega
  exact Bool.eq_false_iff.mpr hnot

theorem windowOut_allow_zero {s : State} (hallow : s.ops.allow = 0) {j : Nat} (hj : j ≤ 2 * s.ops.allow.toNat) :
    windowOut s j = hotpFn s.ops.key (timeStep s) s.ops.token.length := by
  rw [hallow] at hj
  obtain rfl : j = 0 := Nat.le_zero.mp hj
  rw [windowOut, hallow, window_allow_zero]

/-- `T` is the natural quotient, as a 64-bit value. -/
theorem timeStep_eq_ofNat (s : State) : timeStep s = BitVec.ofNat 64 ((usedTime s).toNat / s.ops.step.toNat) := by
  rw [timeStep, ← tstepFn_toNat, BitVec.ofNat_toNat, BitVec.setWidth_eq]

/-- Settles O18: the window's only counter is the current time step, and its code either is the token or is not. -/
theorem verifyWithNoAllowanceComparesWithTheCurrentCode :
    Obligations.VerifyWithNoAllowanceComparesWithTheCurrentCode := by
  intro s hready hallow hquirk
  have hwrap : (latchedBank s).wrap = false := by
    rw [latchedBank, hallow]
    exact windowWraps_allow_zero _
  have hnoQuirk : ∀ {P : Prop}, s.params.zeroCounterMissing = true → P := fun hq => by simp [hquirk] at hq
  rw [← timeStep_eq_ofNat]
  by_cases hcode : (hotpFn s.ops.key (timeStep s) s.ops.token.length).code = s.ops.token
  · have hscan := verifyScan_found (Nat.zero_le _) (by rwa [windowOut_allow_zero hallow (Nat.zero_le _)])
      (fun j hj => absurd hj (Nat.not_lt_zero j)) hnoQuirk
    obtain ⟨t, hnext, hs, hres, -⟩ := verify_next_of_found hready hscan
    refine ⟨t, hnext, hs, ?_⟩
    rw [hres]
    exact ⟨hwrap, iff_of_true rfl hcode.symm⟩
  · have hscan := verifyScan_exhausted (fun j hj => by rwa [windowOut_allow_zero hallow hj]) hnoQuirk
    obtain ⟨t, hnext, hs, hres, -⟩ := verify_next_of_exhausted hready hscan
    refine ⟨t, hnext, hs, ?_⟩
    rw [hres]
    exact ⟨hwrap, iff_of_false (by simp [latchedBank, ResultBank.cleared]) fun h => hcode h.symm⟩

/-! ### The time -/

theorem portWrite_nowLo (v : Word) (s : State) : portWrite Reg.nowLo.word v s = { s with ops := s.ops.writeNowLo v } :=
  portWrite_word_of_fullWidth (by decide) rfl v s

theorem portWrite_nowHi (v : Word) (s : State) : portWrite Reg.nowHi.word v s = { s with ops := s.ops.writeNowHi v } :=
  portWrite_word_of_fullWidth (by decide) rfl v s

/-- However the scan ends without the quirk, `VERIFY` has latched the time it used and its index. -/
theorem verify_next_latches_time {s : State} (hready : VerifyReady s) (hquirk : s.params.zeroCounterMissing = false) :
    ∃ t, exec .verify s = .next t ∧ t.res.nowl = usedTime s ∧ t.res.tstep = tstepFn (usedTime s) s.ops.step := by
  have hcases := scanFrom_cases (quirk := s.params.zeroCounterMissing) (key := s.ops.key) (token := s.ops.token)
    (t := tstepFn (usedTime s) s.ops.step) (a := s.ops.allow) (2 * s.ops.allow.toNat) 0
  obtain ⟨j, -, -, -, hscan⟩ | hscan | ⟨hq, -⟩ := hcases
  · obtain ⟨t, hnext, -, hres, -⟩ := verify_next_of_found hready hscan
    exact ⟨t, hnext, by rw [hres]; rfl, by rw [hres]; rfl⟩
  · obtain ⟨t, hnext, -, hres, -⟩ := verify_next_of_exhausted hready hscan
    exact ⟨t, hnext, by rw [hres]; rfl, by rw [hres]; rfl⟩
  · rw [hquirk] at hq
    cases hq

/-- Settles O37: each write joins the new half with the half held; the time used is latched by either end of the scan. -/
theorem writingTheTimeSetsItsHalfAndItsFlag : Obligations.WritingTheTimeSetsItsHalfAndItsFlag :=
  fun s v => ⟨⟨_, portWrite_nowLo v s, loHalf_joinHalves _ _, hiHalf_joinHalves _ _, rfl⟩,
    ⟨_, portWrite_nowHi v s, hiHalf_joinHalves _ _, loHalf_joinHalves _ _, rfl⟩, rfl, verify_next_latches_time⟩

end Sys2Proof.Machine

/-! PROOFS. The frame of the five commands (10_state.md R24, 60_exceptions.md R226), what consumes the operands
(70_reset_and_hazards.md R247), `HOTP` as a function of its operands (42_hotp.md R169), and the state after `CLEAR` and after
reset (44_control.md R200, 70_reset_and_hazards.md R240). -/

namespace Sys2Proof.Machine

open Sys2Proof

/-! ### The samples a command draws -/

/-- The state a body leaves, however it ends. -/
def CmdEnd.state : CmdEnd → State
  | .finished s => s
  | .raised _ _ s => s

theorem finish_free (ws : List ResMember) (e : CmdEnd) : (finish ws e).free = e.state.free := by cases e <;> rfl

/-- The gathered checks leave the state as it is, or run the computation. -/
theorem checked_state (miss bad : Word) (f : State → CmdEnd) (s : State) :
    (checked miss bad f s).state = s ∨ (checked miss bad f s).state = (f s).state := by
  obtain ⟨-, h⟩ | ⟨-, -, h⟩ | ⟨-, -, h⟩ := checked_cases miss bad f s <;> rw [h]
  · exact .inl rfl
  · exact .inl rfl
  · exact .inr rfl

theorem checked_free {miss bad : Word} {f : State → CmdEnd} {s : State} (h : (f s).state.free = s.free) :
    (checked miss bad f s).state.free = s.free := by
  obtain hs | hs := checked_state miss bad f s <;> rw [hs]
  exact h

theorem verifyCompute_free (s : State) : (verifyCompute s).state.free = (sampleTime s).free := by
  rw [verifyCompute, verifyAt]
  cases verifyScan (usedTime s) (sampleTime s) <;> rfl

/-- No body but that of `VERIFY` draws a sample. -/
theorem bodyOf_free {i : Instr} (hi : i ≠ .verify) (s : State) : (bodyOf i s).state.free = s.free := by
  cases i with
  | encode => rfl
  | hmac => exact checked_free (f := hmacCompute) (by simp only [hmacCompute, CmdEnd.state])
  | hotp => exact checked_free (f := hotpCompute) (by simp only [hotpCompute, CmdEnd.state])
  | verify => exact absurd rfl hi
  | clear => rfl

/-- `VERIFY` draws a sample only when its checks pass and `NOW_VALID` is 0 (60_exceptions.md R226). -/
theorem verifyBody_time (s : State) : (bodyOf .verify s).state.free.time = s.free.time ∨
    (s.ops.nowValid = false ∧ (bodyOf .verify s).state.free.time = s.free.time + 1) := by
  obtain h | h := checked_state (verifyMiss s.ops) (verifyBad s.ops) verifyCompute s
  · exact .inl (congrArg (·.free.time) h)
  · have htime := (congrArg (·.free) h).trans (verifyCompute_free s)
    replace htime := (congrArg (·.time) htime).trans (sampleTime_time s)
    cases hnow : s.ops.nowValid with
    | true => exact .inl (by rwa [hnow] at htime)
    | false => exact .inr ⟨rfl, by rwa [hnow] at htime⟩

/-- Settles O25: the frame of every command, and the samples its body draws. -/
theorem commandsTouchNothingOutsideTheBlock : Obligations.CommandsTouchNothingOutsideTheBlock := by
  intro i s t h
  rw [eq_runBody_of_exec h]
  refine ⟨completed_body i s, ?_⟩
  rw [runBody, finish_free]
  by_cases hi : i = .verify
  · subst hi
    obtain hsame | ⟨hnow, hone⟩ := verifyBody_time (startCommand .verify s)
    · exact .inl hsame
    · exact .inr ⟨rfl, hnow, hone⟩
  · exact .inl (congrArg (·.time) (bodyOf_free hi _))

/-! ### The operands are consumed -/

/-- Settles O28: the operands are discarded, so the key, the counter and the token are missing. -/
theorem operandsAreConsumedByEveryCommand : Obligations.OperandsAreConsumedByEveryCommand := by
  intro w s t h
  have hdiscarded : t.ops = OperandBank.default := (runCommand_completed w s t h).discarded
  have hkey : t.ops.key = [] := by rw [hdiscarded]; rfl
  have htoken : t.ops.token = [] := by rw [hdiscarded]; rfl
  have hcounter : t.ops.cntValid = false := by rw [hdiscarded]; rfl
  obtain ⟨u₁, hnext₁, hfailed₁, -, -⟩ := hmac_next_of_key_eq_nil hkey
  obtain ⟨u₂, hnext₂, hfailed₂, -, -⟩ := hotp_next_of_missing (.inl hkey)
  obtain ⟨u₃, hnext₃, hfailed₃, -, -⟩ := verify_next_of_missing (.inl hkey)
  refine ⟨⟨u₁, hnext₁, hfailed₁.errWord⟩, ⟨u₂, hnext₂, hfailed₂.errWord.trans ?_⟩,
    ⟨u₃, hnext₃, hfailed₃.errWord.trans ?_⟩⟩
  · rw [if_pos hkey, if_pos (.inl hcounter)]
    rfl
  · rw [if_pos hkey, if_pos htoken]
    rfl

/-! ### Two runs of `HOTP` -/

theorem hotpReady_of_checks {s : State} (hmiss : hotpMiss s.params s.ops = 0) (hbad : hotpBad s.params s.ops = 0) :
    HotpReady s := by
  obtain ⟨hkey, hvalid, hquirk⟩ := (hotpMiss_eq_zero_iff _ _).mp hmiss
  obtain ⟨hkeyOvf, hlen⟩ := (hotpBad_eq_zero_iff _ _).mp hbad
  exact ⟨hkey, hvalid, hquirk, hkeyOvf, hlen⟩

/-- What two runs that both succeeded, or both failed alike, show of `HOTP`. -/
def HotpAlike (t t' : State) : Prop :=
  KeptOutside [.tstep, .nowl] t.res t'.res ∧ t.err = t'.err ∧ statusWord t = statusWord t'

theorem mem_hotpSet_of_not_mem {m : ResMember} (hm : m ∉ [ResMember.tstep, .nowl]) : m ∈ hotpSet ++ [.matched, .wrap] := by
  revert hm
  cases m <;> decide

/-- Two failures with one error: the write set is clean in both. -/
theorem Failed.hotpAlike {w w' e : Word} {s s' t t' : State} (h : Failed w hotpSet e s t) (h' : Failed w' hotpSet e s' t') :
    HotpAlike t t' :=
  ⟨fun m hm => sameAt_trans (h.clean m (mem_hotpSet_of_not_mem hm)) (sameAt_symm (h'.clean m (mem_hotpSet_of_not_mem hm))),
    h.errWord.trans h'.errWord.symm, (status_failed h).trans (status_failed h').symm⟩

/-- Two results of one `HOTP_FN`, each stored in a bank whose `MATCH` and `WRAP` the start cleared. -/
theorem storeHotp_startCommand_alike (s s' : State) (out : HotpOut) : KeptOutside [.tstep, .nowl]
    ((startCommand .hotp s).res.storeHotp out) ((startCommand .hotp s').res.storeHotp out) := by
  intro m hm
  cases m
  case tstep => exact absurd (by decide) hm
  case nowl => exact absurd (by decide) hm
  all_goals rfl

/-- Settles O26: the checks and the values stored are functions of the operands. -/
theorem hotpDependsOnItsOperandsAlone : Obligations.HotpDependsOnItsOperandsAlone := by
  intro s s' hparams hkey hkeyOvf hcounter hvalid hlen
  have hmiss : hotpMiss s.params s.ops = hotpMiss s'.params s'.ops := by
    rw [hotpMiss, hotpMiss, hparams, hkey, hcounter, hvalid]
  have hbad : hotpBad s.params s.ops = hotpBad s'.params s'.ops := by rw [hotpBad, hotpBad, hparams, hkeyOvf, hlen]
  suffices ∃ t t', exec .hotp s = .next t ∧ exec .hotp s' = .next t' ∧ HotpAlike t t' from this
  by_cases hmiss0 : hotpMiss s.params s.ops = 0
  · by_cases hbad0 : hotpBad s.params s.ops = 0
    · obtain ⟨t, hnext, hs, hres, -⟩ := hotp_next_of_ready (hotpReady_of_checks hmiss0 hbad0)
      obtain ⟨t', hnext', hs', hres', -⟩ := hotp_next_of_ready (hotpReady_of_checks (hmiss ▸ hmiss0) (hbad ▸ hbad0))
      have hflags := exec_clears_flags hnext (by decide)
      have hflags' := exec_clears_flags hnext' (by decide)
      refine ⟨t, t', hnext, hnext', ?_, hs.errWord.trans hs'.errWord.symm, ?_⟩
      · rw [hres, hres', hkey, hcounter, hlen]
        exact storeHotp_startCommand_alike s s' _
      · exact (status_ok hs (hflags .matched (by decide)) (hflags .wrap (by decide))).trans
          (status_ok hs' (hflags' .matched (by decide)) (hflags' .wrap (by decide))).symm
    · obtain ⟨t, hnext, hfailed, -⟩ := raised_next ((bodyOf_hotp_startCommand s).trans (checked_bad hmiss0 hbad0))
      rw [hmiss] at hmiss0
      rw [hbad] at hbad0 hfailed
      obtain ⟨t', hnext', hfailed', -⟩ := raised_next ((bodyOf_hotp_startCommand s').trans (checked_bad hmiss0 hbad0))
      exact ⟨t, t', hnext, hnext', hfailed.hotpAlike hfailed'⟩
  · obtain ⟨t, hnext, hfailed, -⟩ := raised_next ((bodyOf_hotp_startCommand s).trans (checked_miss hmiss0))
    rw [hmiss] at hmiss0 hfailed
    obtain ⟨t', hnext', hfailed', -⟩ := raised_next ((bodyOf_hotp_startCommand s').trans (checked_miss hmiss0))
    exact ⟨t, t', hnext, hnext', hfailed.hotpAlike hfailed'⟩

/-! ### `CLEAR` -/

theorem exec_clear (s : State) : exec .clear s = .next (complete (startCommand .clear s)) := rfl

/-- The write set of `CLEAR` is the whole result bank. -/
theorem startCommand_clear_res (s : State) : (startCommand .clear s).res = ResultBank.cleared := clearSet_clear _

theorem clear_succeeded (s : State) : Succeeded (encode .clear) s (complete (startCommand .clear s)) :=
  (runBody_finished (i := .clear) (s := s) rfl).2

/-- Settles O19: `CLEAR` clears the result bank at its start and its completion discards the operands; a busy block drops it. -/
theorem clearReturnsTheBlockToReset : Obligations.ClearReturnsTheBlockToReset := by
  refine ⟨fun s => ?_, fun s n rest => step_busy_drops⟩
  have hres : (complete (startCommand .clear s)).res = ResultBank.cleared := startCommand_clear_res s
  have hs := clear_succeeded s
  exact ⟨_, exec_clear s, hs, status_ok hs (by rw [hres]; rfl) (by rw [hres]; rfl), rfl, hres, rfl, rfl⟩

/-! ### Reset -/

/-- With a reset next at the port, an idle block or a busy one with a slot left is reset. -/
theorem step_resets {s : State} {rest : List Event} (hport : s.port = .reset :: rest)
    (hleft : s.status.busy = true → s.busyLeft ≠ 0) : step s = .next (applyReset { s with port := rest }) := by
  cases hbusy : s.status.busy with
  | false => exact step_idle_of_port hbusy hport
  | true =>
    obtain ⟨n, hn⟩ := Nat.exists_eq_succ_of_ne_zero (hleft hbusy)
    rw [step_busySlot hbusy hn, busySlot, hport]
    rfl

/-- After reset every register but two reads 0 (70_reset_and_hazards.md R240). -/
theorem readReg_applyReset (r : Reg) (s : State) :
    readReg r (applyReset s) = if r = .codeLen then 6 else if r = .step then 30 else 0 := by
  have hreset : readReg r (applyReset s) = readReg r State.reset := by cases r <;> rfl
  rw [hreset]
  clear hreset s
  cases r
  case code j => exact readReg_code_of_length_le (Nat.zero_le _)
  all_goals decide +revert

theorem eq_word_iff_of_regAt {codeMax : Nat} {w : BitVec 7} {r q : Reg} (h : regAt codeMax w = some r) (hq : q ∈ namedRegs) :
    w = q.word ↔ r = q := by
  constructor
  · rintro rfl
    exact Option.some.inj (h.symm.trans (regAt_word_of_mem_namedRegs codeMax hq))
  · rintro rfl
    exact word_eq_of_regAt h

theorem ne_word_of_reserved {codeMax : Nat} {w : BitVec 7} {q : Reg} (h : regAt codeMax w = none) (hq : q ∈ namedRegs) :
    w ≠ q.word := by
  rintro rfl
  rw [regAt_word_of_mem_namedRegs codeMax hq] at h
  cases h

theorem portRead_applyReset (w : BitVec 7) (s : State) :
    portRead w (applyReset s) = if w = Reg.codeLen.word then 6 else if w = Reg.step.word then 30 else 0 := by
  cases hreg : regAt (applyReset s).params.codeMax w with
  | some r =>
    rw [portRead_of_regAt hreg, readReg_applyReset]
    simp only [eq_word_iff_of_regAt hreg (q := .codeLen) (by decide), eq_word_iff_of_regAt hreg (q := .step) (by decide)]
  | none =>
    rw [portRead_of_reserved hreg, if_neg (ne_word_of_reserved hreg (by decide)),
      if_neg (ne_word_of_reserved hreg (by decide))]

/-- Settles O4: the values of `State.reset`, `CLEAR` from any state, and a reset with what the port reads after it. -/
theorem resetPutsEveryRegisterAtItsResetValue : Obligations.ResetPutsEveryRegisterAtItsResetValue := by
  refine ⟨by decide, fun s => ?_, fun s rest hport hleft => ?_⟩
  · exact ⟨_, exec_clear s, rfl, startCommand_clear_res s, rfl, rfl, rfl, rfl⟩
  · exact ⟨_, step_resets hport hleft, rfl, rfl, rfl, rfl, rfl, rfl, rfl, rfl, rfl, rfl,
      fun w => portRead_applyReset w { s with port := rest }⟩

end Sys2Proof.Machine

/-! PROOFS. The statements on the pure functions of 41_hmac_sha1.md and 42_hotp.md: the rendering of a value (R164), the padding,
the message schedule and the key block (R131, R133, R137), the count of compressions (R139), and the known answers
(R135, R169). -/

namespace Sys2Proof.Machine

open Sys2Proof

/-! ### Rendering -/

/-- The zeros on the left do not change the value the digits denote. -/
theorem render_value {v : Nat} (n : Nat) (hv : v ≤ 999999) :
    (render v n).foldl (fun acc b => 10 * acc + (b.toNat - 0x30)) 0 = v := by
  unfold render
  split
  · rw [List.foldl_append, digitsValue_replicate, decimal_value v hv]
  · exact decimal_value v hv

theorem lt_pow_digitCount {v : Nat} (hv : v ≤ 999999) : v < 10 ^ digitCount v := by
  unfold digitCount
  split_ifs <;> omega

theorem pow_digitCount_le {v : Nat} (hv : v ≠ 0) : 10 ^ (digitCount v - 1) ≤ v := by
  unfold digitCount
  split_ifs <;> omega

/-- Settles O48, from the length, the digits and the value of a rendering and the two bounds of the digit count. -/
theorem renderingPadsAndNeverCuts : Obligations.RenderingPadsAndNeverCuts :=
  ⟨rfl, fun v n hv => ⟨render_length v n, render_digits v n, render_value n hv, lt_pow_digitCount hv, pow_digitCount_le⟩⟩

/-! ### Padding -/

theorem shaPad_length_mod (m : Bytes) : (shaPad m).length % 64 = 0 := by
  rw [shaPad_length, shaPadZeros]
  omega

theorem shaPadZeros_le {len z : Nat} (h : (len + 1 + z + 8) % 64 = 0) : shaPadZeros len ≤ z := by
  rw [shaPadZeros]
  omega

theorem shaPad_eq_append (m : Bytes) : shaPad m = (m ++ [0x80]) ++
    (List.replicate (shaPadZeros m.length) 0x00 ++ (be64 (BitVec.ofNat 64 (8 * m.length))).toList) :=
  List.append_assoc _ _ _

/-- The byte at index `i` after the message and 0x80. -/
theorem shaPad_getElem?_tail (m : Bytes) (i : Nat) : (shaPad m)[m.length + 1 + i]? =
    (List.replicate (shaPadZeros m.length) (0x00 : Byte) ++ (be64 (BitVec.ofNat 64 (8 * m.length))).toList)[i]? := by
  have hlen : (m ++ [(0x80 : Byte)]).length = m.length + 1 := by simp
  rw [shaPad_eq_append, List.getElem?_append_right (by omega), hlen, Nat.add_sub_cancel_left]

theorem shaPad_getElem?_zero {m : Bytes} {j : Nat} (hj : j < shaPadZeros m.length) :
    (shaPad m)[m.length + 1 + j]? = some 0x00 := by
  rw [shaPad_getElem?_tail, List.getElem?_append_left (by simpa using hj), List.getElem?_replicate_of_lt hj]

theorem shaPad_getElem?_lengthField (m : Bytes) (j : Fin 8) :
    (shaPad m)[m.length + 1 + shaPadZeros m.length + j.val]? = some (be64 (BitVec.ofNat 64 (8 * m.length)))[j] := by
  rw [Nat.add_assoc _ (shaPadZeros m.length), shaPad_getElem?_tail, List.getElem?_append_right (by simp)]
  simp

/-- Settles O49: the length on numbers, the parts of the padded message, and the length field byte by byte, where `8 * L` fits
its 64 bits. -/
theorem paddingFillsWholeBlocks : Obligations.PaddingFillsWholeBlocks := by
  intro m
  have hlength := shaPad_length m
  have hmod := shaPad_length_mod m
  refine ⟨hmod, by omega, ⟨_, (shaPad_eq_append m).symm⟩, hlength, fun z => shaPadZeros_le,
    fun hlt => ⟨fun j => shaPad_getElem?_zero, fun j hj => ?_⟩⟩
  refine ⟨_, shaPad_getElem?_lengthField m ⟨j, hj⟩, ?_⟩
  have hfits : 8 * m.length % 2 ^ 64 = 8 * m.length := Nat.mod_eq_of_lt (by omega)
  rw [be64_getElem_toNat, BitVec.toNat_ofNat, hfits]

/-! ### The message schedule -/

/-- Settles O50: the fold extends the block's sixteen words one by one and keeps the words before. -/
theorem theMessageScheduleFollowsItsRecurrence : Obligations.TheMessageScheduleFollowsItsRecurrence := by
  intro block w
  obtain ⟨hlen, hold, hnew⟩ := foldl_extend 64 16 ((List.range 16).map (shaBlockWord block)) (by simp) (Nat.le_refl _)
  refine ⟨hlen, fun t ht => (hold t ht).trans ?_, hnew⟩
  rw [List.getD_eq_getElem _ _ (by simpa using ht), List.getElem_map, List.getElem_range]
  rfl

/-! ### The key block and the count of compressions -/

theorem hmacKeyBlock_of_le {k : Bytes} (h : k.length ≤ 64) : hmacKeyBlock k = k ++ List.replicate (64 - k.length) 0x00 :=
  if_neg (by omega)

theorem hmacKeyBlock_of_lt {k : Bytes} (h : 64 < k.length) : hmacKeyBlock k = (sha1 k).toList ++ List.replicate 44 0x00 :=
  if_pos h

/-- Settles O51, from the two cases of the key's length. -/
theorem theKeyBlockIsSixtyFourBytes : Obligations.TheKeyBlockIsSixtyFourBytes := by
  refine fun k => ⟨hmacKeyBlock_length k, fun hle => ?_, hmacKeyBlock_of_lt⟩
  rw [hmacKeyBlock_of_le hle, List.drop_left]
  exact ⟨List.prefix_append _ _, fun b hb => (List.mem_replicate.mp hb).2⟩

/-- A message takes the blocks that its bytes, the byte 0x80 and the length field fill. -/
theorem sha1Calls_eq (m : Bytes) : sha1Calls m = (m.length + 9 + 63) / 64 := by
  rw [sha1Calls, shaPad_length, shaPadZeros]
  omega

/-- Settles O52: two blocks for each of the two hashes, and the blocks of a key that is hashed first. -/
theorem oneHmacCostsFourBlocksAndTheKeys : Obligations.OneHmacCostsFourBlocksAndTheKeys := by
  intro k m hm
  have hdigest : (sha1 m).toList.length = 20 := by simp
  rw [hmacCalls, hmacWork, sha1Calls_eq, sha1Calls_eq, sha1Calls_eq, List.length_append, List.length_append,
    hmacKeyBlock_length, hm, hdigest]
  split_ifs <;> omega

/-! ### The known answers -/

/-- Settles O55: three closed evaluations. -/
theorem theKnownAnswersComeOut : Obligations.TheKnownAnswersComeOut := by
  refine ⟨?_, ?_, ?_⟩ <;> decide +kernel

end Sys2Proof.Machine
